-- ==== Sys2Proof/Word.lean ====
section
/-! DEFINITION. The word type of the machine (00_scope.md R4, R6): register, address, memory cell and instruction
are all 16 bits; the character streams carry 8-bit bytes (44_trap.md R119). -/

namespace Sys2Proof

/-- A 16-bit value: a register, an address, a memory cell or an instruction word (R6). Addition wraps modulo 65536. -/
abbrev Word := BitVec 16

/-- A byte of the character streams (R119). -/
abbrev Byte := BitVec 8

end Sys2Proof
end

