-- ==== Sys2Proof/Syntax.lean ====
section
/-! DEFINITION. The instructions: one constructor for each of the 25 rows of spec/opcode_table.json
(30_encoding.md R51, R54). Fields stand in the order of the encoding, bit 11 downward. The bits a format ignores are
kept (fields named `ign`): they change no effect (R57), and the fault record holds the whole word (10_state.md R18). -/

namespace Sys2Proof

/-- A register index 0..7 (10_state.md R10). -/
abbrev Reg := Fin 8

/-- The instruction set. -/
inductive Instr where
  /-- BR, conditional branch (R100): `0000 n z p PCoffset9`. -/
  | br (n z p : Bool) (off : BitVec 9)
  /-- ADD, register form (R80): `0001 DR SR1 0 -- SR2`. -/
  | addReg (dr sr1 : Reg) (ign : BitVec 2) (sr2 : Reg)
  /-- ADD, immediate form (R81): `0001 DR SR1 1 imm5`. -/
  | addImm (dr sr1 : Reg) (imm : BitVec 5)
  /-- LD, load PC-relative (R90): `0010 DR PCoffset9`. -/
  | ld (dr : Reg) (off : BitVec 9)
  /-- ST, store PC-relative (R91): `0011 SR PCoffset9`. -/
  | st (sr : Reg) (off : BitVec 9)
  /-- JSR, call PC-relative (R102): `0100 1 PCoffset11`. -/
  | jsr (off : BitVec 11)
  /-- JSRR, call through register (R103): `0100 0 -- BaseR ------`. -/
  | jsrr (ignHi : BitVec 2) (base : Reg) (ignLo : BitVec 6)
  /-- AND, register form (R82): `0101 DR SR1 0 -- SR2`. -/
  | andReg (dr sr1 : Reg) (ign : BitVec 2) (sr2 : Reg)
  /-- AND, immediate form (R83): `0101 DR SR1 1 imm5`. -/
  | andImm (dr sr1 : Reg) (imm : BitVec 5)
  /-- LDR, load base plus offset (R92): `0110 DR BaseR offset6`. -/
  | ldr (dr base : Reg) (off : BitVec 6)
  /-- STR, store base plus offset (R93): `0111 SR BaseR offset6`. -/
  | str (sr base : Reg) (off : BitVec 6)
  /-- RTI, illegal here (R130): `1000 ------------`. -/
  | rti (ign : BitVec 12)
  /-- NOT (R84): `1001 DR SR ------`. -/
  | not (dr sr : Reg) (ign : BitVec 6)
  /-- LDI, load indirect (R94): `1010 DR PCoffset9`. -/
  | ldi (dr : Reg) (off : BitVec 9)
  /-- STI, store indirect (R95): `1011 SR PCoffset9`. -/
  | sti (sr : Reg) (off : BitVec 9)
  /-- JMP, jump to register (R101): `1100 --- BaseR ------`. -/
  | jmp (ignHi : BitVec 3) (base : Reg) (ignLo : BitVec 6)
  /-- RES, the reserved opcode, illegal (R131): `1101 ------------`. -/
  | res (ign : BitVec 12)
  /-- LEA, load effective address (R96): `1110 DR PCoffset9`. -/
  | lea (dr : Reg) (off : BitVec 9)
  /-- TRAP x20 GETC (R112): `1111 ---- 00100000`. -/
  | getc (ign : BitVec 4)
  /-- TRAP x21 OUT (R113): `1111 ---- 00100001`. -/
  | out (ign : BitVec 4)
  /-- TRAP x22 PUTS (R114): `1111 ---- 00100010`. -/
  | puts (ign : BitVec 4)
  /-- TRAP x23 IN (R115): `1111 ---- 00100011`. -/
  | inChar (ign : BitVec 4)
  /-- TRAP x24 PUTSP (R116): `1111 ---- 00100100`. -/
  | putsp (ign : BitVec 4)
  /-- TRAP x25 HALT (R117): `1111 ---- 00100101`. -/
  | halt (ign : BitVec 4)
  /-- TRAP with an undefined vector (R118): `1111 ---- trapvect8`, trapvect8 outside x20..x25. -/
  | trap (ign : BitVec 4) (vect : BitVec 8)
  deriving DecidableEq, Repr

end Sys2Proof
end

