-- ==== Sys2Proof/WellFormed.lean ====
section
/-! DEFINITION. Which terms of `Instr` are instructions. The field types bound every register index, immediate and
offset (30_encoding.md R52), so one check is left: the catch-all TRAP row stands only for the vectors that none of the
six routine rows has (R55). -/

namespace Sys2Proof

/-- The vectors of the six built-in routines (44_trap.md R111). -/
def definedVectors : List (BitVec 8) := [0x20, 0x21, 0x22, 0x23, 0x24, 0x25]

/-- `Instr.wf i`: `i` is an instruction some word decodes to (R55). -/
def Instr.wf : Instr → Bool
  | .trap _ vect => !definedVectors.contains vect
  | .br _ _ _ _ => true
  | .addReg _ _ _ _ => true
  | .addImm _ _ _ => true
  | .ld _ _ => true
  | .st _ _ => true
  | .jsr _ => true
  | .jsrr _ _ _ => true
  | .andReg _ _ _ _ => true
  | .andImm _ _ _ => true
  | .ldr _ _ _ => true
  | .str _ _ _ => true
  | .rti _ => true
  | .not _ _ _ => true
  | .ldi _ _ => true
  | .sti _ _ => true
  | .jmp _ _ _ => true
  | .res _ => true
  | .lea _ _ => true
  | .getc _ => true
  | .out _ => true
  | .puts _ => true
  | .inChar _ => true
  | .putsp _ => true
  | .halt _ => true

end Sys2Proof
end

