-- ==== Sys2Proof/Decode.lean ====
section
/-! DEFINITION. Decoding and encoding of the one-cell instructions (30_encoding.md R50 to R57) and the opcode table as
masks and patterns. Decoding is total: every one of the 65536 words is an instruction of some row (R55), the illegal
ones included (R56), so no word is rejected; `decodeTableWord` rejects only what is no 16-bit word.
Opcode numbers and field positions are the rules'; their provenance is in assumption log 9. -/

namespace Sys2Proof

/-- The 3-bit register field of `w` whose lowest bit is `lo` (R52). -/
def regField (w : Word) (lo : Nat) : Reg := (w.extractLsb' lo 3).toFin

/-- The trap row a vector selects: six routines by equality, the catch-all row for the rest (R55, R111). -/
def decodeTrap (ign : BitVec 4) (vect : BitVec 8) : Instr :=
  if vect = 0x20 then .getc ign
  else if vect = 0x21 then .out ign
  else if vect = 0x22 then .puts ign
  else if vect = 0x23 then .inChar ign
  else if vect = 0x24 then .putsp ign
  else if vect = 0x25 then .halt ign
  else .trap ign vect

/-- Decode one instruction word (40_cycle.md R72): the opcode `instr[15:12]`, then bit 5 for ADD and AND, bit 11 for
JSR and JSRR, trapvect8 for TRAP. It reads nothing but the word. -/
def decode (w : Word) : Instr :=
  match (w.extractLsb' 12 4).toNat with
  | 0x0 => .br (w.getLsbD 11) (w.getLsbD 10) (w.getLsbD 9) (w.extractLsb' 0 9)
  | 0x1 => if w.getLsbD 5 then .addImm (regField w 9) (regField w 6) (w.extractLsb' 0 5)
           else .addReg (regField w 9) (regField w 6) (w.extractLsb' 3 2) (regField w 0)
  | 0x2 => .ld (regField w 9) (w.extractLsb' 0 9)
  | 0x3 => .st (regField w 9) (w.extractLsb' 0 9)
  | 0x4 => if w.getLsbD 11 then .jsr (w.extractLsb' 0 11)
           else .jsrr (w.extractLsb' 9 2) (regField w 6) (w.extractLsb' 0 6)
  | 0x5 => if w.getLsbD 5 then .andImm (regField w 9) (regField w 6) (w.extractLsb' 0 5)
           else .andReg (regField w 9) (regField w 6) (w.extractLsb' 3 2) (regField w 0)
  | 0x6 => .ldr (regField w 9) (regField w 6) (w.extractLsb' 0 6)
  | 0x7 => .str (regField w 9) (regField w 6) (w.extractLsb' 0 6)
  | 0x8 => .rti (w.extractLsb' 0 12)
  | 0x9 => .not (regField w 9) (regField w 6) (w.extractLsb' 0 6)
  | 0xA => .ldi (regField w 9) (w.extractLsb' 0 9)
  | 0xB => .sti (regField w 9) (w.extractLsb' 0 9)
  | 0xC => .jmp (w.extractLsb' 9 3) (regField w 6) (w.extractLsb' 0 6)
  | 0xD => .res (w.extractLsb' 0 12)
  | 0xE => .lea (regField w 9) (w.extractLsb' 0 9)
  | _ => decodeTrap (w.extractLsb' 8 4) (w.extractLsb' 0 8)  -- 0xF, the one value left

/-- The three bits of a register field (R52). -/
def regBits (r : Reg) : BitVec 3 := BitVec.ofFin r

/-- The word of an instruction, its fields written from bit 15 down as in R51. -/
def encode : Instr → Word
  | .br n z p off => 0b0000#4 ++ BitVec.ofBool n ++ BitVec.ofBool z ++ BitVec.ofBool p ++ off
  | .addReg dr sr1 ign sr2 => 0b0001#4 ++ regBits dr ++ regBits sr1 ++ 0b0#1 ++ ign ++ regBits sr2
  | .addImm dr sr1 imm => 0b0001#4 ++ regBits dr ++ regBits sr1 ++ 0b1#1 ++ imm
  | .ld dr off => 0b0010#4 ++ regBits dr ++ off
  | .st sr off => 0b0011#4 ++ regBits sr ++ off
  | .jsr off => 0b0100#4 ++ 0b1#1 ++ off
  | .jsrr ignHi base ignLo => 0b0100#4 ++ 0b0#1 ++ ignHi ++ regBits base ++ ignLo
  | .andReg dr sr1 ign sr2 => 0b0101#4 ++ regBits dr ++ regBits sr1 ++ 0b0#1 ++ ign ++ regBits sr2
  | .andImm dr sr1 imm => 0b0101#4 ++ regBits dr ++ regBits sr1 ++ 0b1#1 ++ imm
  | .ldr dr base off => 0b0110#4 ++ regBits dr ++ regBits base ++ off
  | .str sr base off => 0b0111#4 ++ regBits sr ++ regBits base ++ off
  | .rti ign => 0b1000#4 ++ ign
  | .not dr sr ign => 0b1001#4 ++ regBits dr ++ regBits sr ++ ign
  | .ldi dr off => 0b1010#4 ++ regBits dr ++ off
  | .sti sr off => 0b1011#4 ++ regBits sr ++ off
  | .jmp ignHi base ignLo => 0b1100#4 ++ ignHi ++ regBits base ++ ignLo
  | .res ign => 0b1101#4 ++ ign
  | .lea dr off => 0b1110#4 ++ regBits dr ++ off
  | .getc ign => 0b1111#4 ++ ign ++ 0x20#8
  | .out ign => 0b1111#4 ++ ign ++ 0x21#8
  | .puts ign => 0b1111#4 ++ ign ++ 0x22#8
  | .inChar ign => 0b1111#4 ++ ign ++ 0x23#8
  | .putsp ign => 0b1111#4 ++ ign ++ 0x24#8
  | .halt ign => 0b1111#4 ++ ign ++ 0x25#8
  | .trap ign vect => 0b1111#4 ++ ign ++ vect

/-- The mask and the match of an instruction's row of spec/opcode_table.json: a word `w` matches the row when
`w & mask = match` (R55). -/
def rowMask : Instr → Word
  | .br _ _ _ _ => 0xF000
  | .addReg _ _ _ _ => 0xF020
  | .addImm _ _ _ => 0xF020
  | .ld _ _ => 0xF000
  | .st _ _ => 0xF000
  | .jsr _ => 0xF800
  | .jsrr _ _ _ => 0xF800
  | .andReg _ _ _ _ => 0xF020
  | .andImm _ _ _ => 0xF020
  | .ldr _ _ _ => 0xF000
  | .str _ _ _ => 0xF000
  | .rti _ => 0xF000
  | .not _ _ _ => 0xF000
  | .ldi _ _ => 0xF000
  | .sti _ _ => 0xF000
  | .jmp _ _ _ => 0xF000
  | .res _ => 0xF000
  | .lea _ _ => 0xF000
  | .getc _ => 0xF0FF
  | .out _ => 0xF0FF
  | .puts _ => 0xF0FF
  | .inChar _ => 0xF0FF
  | .putsp _ => 0xF0FF
  | .halt _ => 0xF0FF
  | .trap _ _ => 0xF000

/-- The match of an instruction's row (see `rowMask`). -/
def rowMatch : Instr → Word
  | .br _ _ _ _ => 0x0000
  | .addReg _ _ _ _ => 0x1000
  | .addImm _ _ _ => 0x1020
  | .ld _ _ => 0x2000
  | .st _ _ => 0x3000
  | .jsr _ => 0x4800
  | .jsrr _ _ _ => 0x4000
  | .andReg _ _ _ _ => 0x5000
  | .andImm _ _ _ => 0x5020
  | .ldr _ _ _ => 0x6000
  | .str _ _ _ => 0x7000
  | .rti _ => 0x8000
  | .not _ _ _ => 0x9000
  | .ldi _ _ => 0xA000
  | .sti _ _ => 0xB000
  | .jmp _ _ _ => 0xC000
  | .res _ => 0xD000
  | .lea _ _ => 0xE000
  | .getc _ => 0xF020
  | .out _ => 0xF021
  | .puts _ => 0xF022
  | .inChar _ => 0xF023
  | .putsp _ => 0xF024
  | .halt _ => 0xF025
  | .trap _ _ => 0xF000

/-- The instruction the decoder reads from the table word `w` of `nbits` bits; every row is one 16-bit cell (R50).
`none` where `w` is no word of at most 16 bits. -/
def decodeTableWord (nbits w : Nat) : Option Instr :=
  if nbits ≤ 16 && w < 2 ^ nbits then some (decode (BitVec.ofNat 16 w)) else none

end Sys2Proof
end

