-- ==== Sys2Proof/Config.lean ====
section
/-! DEFINITION. The parameters of the hardware (00_scope.md R4): the values the spec fixes, and the open ones as
constants with no body, so that nothing can be proved of their value. -/

namespace Sys2Proof

/-- `ENTRY`, the start address (R4, R162). -/
def Config.entry : Word := 0x3000

/-- `MEM_RESET`: what every cell holds before an image is loaded (R4, R19). -/
def Config.memReset : Word := 0x0000

/-- `NCELL`, the number of memory cells (R4, R19). -/
def Config.ncell : Nat := 65536

/-- `IN_PROMPT`, the bytes the IN routine writes first: OPEN in the spec (R4, R115, D11), so a free value.
Assumption log 5, DESIGN CHOICE (a constant with no body). -/
opaque Config.inPrompt : List Byte

/-- `HALT_NOTICE`, the bytes the HALT routine writes: OPEN in the spec (R4, R117, D11), so a free value.
Assumption log 5, DESIGN CHOICE (a constant with no body). -/
opaque Config.haltNotice : List Byte

/-- The bytes of an input stream whose contents the model leaves open (`INPUT` of R4; U10: "each byte is a draw under
no law"), by position. Assumption log 3, DESIGN CHOICE (a function with no body). -/
opaque Config.inputByte : Nat → Byte

end Sys2Proof
end

