-- ==== Sys2Proof/Machine/State.lean ====
section
/-! DEFINITION. All state of the machine as plain data (10_state.md R10 to R23), the reasons a step can stop without a
next state, and the state right after reset (R22). -/

namespace Sys2Proof.Machine

/-- Memory: (address, cell) pairs, addresses strictly rising, none holding what an unlisted cell reads as
(`Memory.wf`, Machine/Ops.lean). The unit is the 16-bit cell, not the byte (20_memory.md R30; assumption log 1). -/
abbrev Memory := List (Nat × Word)

/-- `RUN` (R17). -/
inductive RunState where
  | running
  | halted
  | faulted
  deriving DecidableEq, Repr

/-- The kinds of the fault record (60_exceptions.md R140): a closed enumeration of names, no numbers (D20). -/
inductive FaultKind where
  | illegalInstruction
  | ioFailure
  deriving DecidableEq, Repr

/-- `FAULT`, the triple of R18: the kind, the address the instruction was fetched from, its word. -/
structure FaultRecord where
  kind : FaultKind
  addr : Word
  instr : Word
  deriving DecidableEq, Repr

/-- What the input stream gives once its listed bytes are consumed (44_trap.md R119, R170; 92_eei_decisions.md D24). -/
inductive InputTail where
  /-- The environment reports failure: end of stream. -/
  | fails
  /-- No byte and no failure ever comes: a read waits for ever. -/
  | silent
  /-- An infinite sequence of bytes the model leaves open: the next one is `Config.inputByte k`. -/
  | endless (k : Nat)
  deriving DecidableEq, Repr

/-- `IN_STREAM` (R21): the bytes not yet consumed, the next one first, and what follows them. -/
structure InStream where
  bytes : List Byte
  tail : InputTail
  deriving DecidableEq, Repr

/-- `OUT_STREAM` (R21): the bytes written so far, oldest first, and how many more the environment accepts before it
reports failure (`none`: it never does), R119; assumption log 4. -/
structure OutStream where
  bytes : List Byte
  room : Option Nat
  deriving DecidableEq, Repr

/-- The state of the machine. Nothing else is state (R20, R23). -/
structure State where
  /-- `R0`..`R7` (R10). -/
  regs : Vector Word 8
  /-- `PC` (R12). While an instruction executes it holds the incremented value (R13). -/
  pc : Word
  /-- `COND` (R14): bit 2 Negative, bit 1 Zero, bit 0 Positive. -/
  cond : BitVec 3
  /-- `MEM` (R19). -/
  mem : Memory
  /-- `RUN` (R17). -/
  run : RunState
  /-- `FAULT` (R18), none unless Faulted. -/
  fault : Option FaultRecord
  /-- `IN_STREAM` (R21). -/
  input : InStream
  /-- `OUT_STREAM` (R21). -/
  output : OutStream
  deriving DecidableEq, Repr

/-- Why a step has no next state. None of these is an exception of the machine: those are next states with
RUN = Faulted (60_exceptions.md R141, R142). -/
inductive Fault where
  /-- Raised by `step` in a state with RUN = Halted, where no cycle takes place (40_cycle.md R70). Safe (log 6). -/
  | machineHalted
  /-- Raised by `step` in a state with RUN = Faulted, where no cycle takes place (R70, R142). Safe (log 6). -/
  | machineFaulted
  /-- Raised by GETC and IN when the input stream gives neither a byte nor a failure: the cycle never completes
  (R170; U11 "stuck"). Safe (log 7). -/
  | inputWait
  /-- Raised by PUTS and PUTSP when the walk never meets its terminator and the output never fails: the cycle never
  completes (R169; U14 "hang"). Safe (log 8). -/
  | stringNeverEnds
  deriving DecidableEq, Repr

/-- Refusals: no meaning of this model refuses. -/
inductive Refusal where
  /-- Raised by an arm of `exec` whose instruction has no meaning yet (there is none). Safe. -/
  | notModelled (mnemonic : String)
  deriving DecidableEq, Repr

/-- The outcome of a step or of a meaning. -/
abbrev Result := Host.Outcome State Fault Refusal

/-- The machine right after reset: power-on, no image, start (R22, R160, R162). R0..R7 are zero (log 2) and the input
is endless and open (log 3), both DESIGN CHOICE: the spec leaves them to the parameters REG_RESET and INPUT. -/
def State.reset : State where
  regs := Vector.replicate 8 0x0000
  pc := Config.entry
  cond := 0b010
  mem := []
  run := .running
  fault := none
  input := { bytes := [], tail := .endless 0 }
  output := { bytes := [], room := none }

end Sys2Proof.Machine
end

