-- ==== Sys2Proof/Machine/Ops.lean ====
section
/-! DEFINITION. The named operations over registers, memory and streams; taking an exception; start. Every meaning is
written over these. -/

namespace Sys2Proof.Machine

/-! ### Registers -/

/-- `x[r]`: no register is hard-wired (10_state.md R10). -/
def State.reg (s : State) (r : Reg) : Word := s.regs[r]

/-- `x[r] <- v` (R10). -/
def State.setReg (s : State) (r : Reg) (v : Word) : State := { s with regs := s.regs.set r.val v r.isLt }

/-- `pc <- v` (R12). -/
def State.setPc (s : State) (v : Word) : State := { s with pc := v }

/-- `cond <- c` (R14). -/
def State.setCond (s : State) (c : BitVec 3) : State := { s with cond := c }

/-- `x[7] <- pc`, the first action of JSR, JSRR and every TRAP (43_control.md R102, R103; 44_trap.md R110). -/
def State.link (s : State) : State := s.setReg 7 s.pc

/-! ### Memory -/

/-- What a cell that no entry lists holds (10_state.md R19, R22). -/
def Memory.unlisted : Word := Config.memReset

/-- The canonical form: addresses of the space, strictly rising, no entry equal to what an unlisted cell holds. -/
def Memory.wf (m : Memory) : Bool :=
  decide (m.Pairwise (fun c d => c.1 < d.1)) && m.all (fun c => decide (c.1 < Config.ncell) && c.2 != Memory.unlisted)

/-- The cell at address `k`. -/
def Memory.get : Memory → Nat → Word
  | [], _ => Memory.unlisted
  | c :: m, k => if c.1 = k then c.2 else Memory.get m k

/-- Insert an entry before the first greater address. -/
def Memory.insert (k : Nat) (v : Word) : Memory → Memory
  | [] => [(k, v)]
  | c :: m => if k < c.1 then (k, v) :: c :: m else c :: Memory.insert k v m

/-- Set the cell at address `k`, keeping the canonical form. -/
def Memory.put (m : Memory) (k : Nat) (v : Word) : Memory :=
  let rest := m.filter (fun c => c.1 != k)
  if v = Memory.unlisted then rest else Memory.insert k v rest

/-- `MemRead(addr, 16)` (20_memory.md R31): total. -/
def Memory.read (m : Memory) (a : Word) : Word := m.get a.toNat

/-- `MemWrite(addr, 16, v)` (R31): total. -/
def Memory.write (m : Memory) (a v : Word) : Memory := m.put a.toNat v

/-- Store one cell. -/
def State.store (s : State) (a v : Word) : State := { s with mem := s.mem.write a v }

/-! ### Fetch (40_cycle.md R71) -/

/-- `instr = MemRead(pc, 16)`: an ordinary read, done anew every cycle (20_memory.md R40). -/
def State.fetchWord (s : State) : Word := s.mem.read s.pc

/-- `pc <- (pc + 1) mod 65536`. -/
def State.advance (s : State) : State := s.setPc (s.pc + 1)

/-- `A`, the address the executing instruction was fetched from: `pc` is `A + 1` (R13, R71). -/
def State.fetchAddr (s : State) : Word := s.pc - 1

/-! ### Exceptions and start -/

/-- `raise K(A, instr)` (60_exceptions.md R141, R142): record and stop; nothing already written is undone, and no
handler runs. There is no return from it (R142, R146): only `State.start` leaves the Faulted state. -/
def State.raise (s : State) (kind : FaultKind) (i : Instr) : State :=
  { s with run := .faulted, fault := some { kind := kind, addr := s.fetchAddr, instr := encode i } }

/-- `run <- Halted` (44_trap.md R117). -/
def State.halt (s : State) : State := { s with run := .halted }

/-- Start (70_reset_and_hazards.md R162), also of a stopped machine (R163): registers, memory and streams are not
touched. -/
def State.start (s : State) : State :=
  { s with cond := 0b010, pc := Config.entry, run := .running, fault := none }

/-! ### Streams (44_trap.md R119, R120) -/

/-- What `In()` gives. -/
inductive InAnswer where
  | byte (c : Byte) (rest : InStream)
  | failed
  | waiting
  deriving DecidableEq, Repr

/-- `In()` removes and returns the first byte, or fails, or waits (R119). -/
def InStream.next (i : InStream) : InAnswer :=
  match i.bytes with
  | c :: rest => .byte c { i with bytes := rest }
  | [] =>
    match i.tail with
    | .fails => .failed
    | .silent => .waiting
    | .endless k => .byte (Config.inputByte k) { bytes := [], tail := .endless (k + 1) }

/-- What writing bytes gives: the stream after all of them, or after those before the first failing `Out`. -/
inductive OutAnswer where
  | written (o : OutStream)
  | failed (o : OutStream)
  deriving DecidableEq, Repr

/-- `for each byte b of bs, in order: Out(b)` (R119): each `Out` appends one byte; the first that fails ends it (R120).
`OutStream.put_cons` (Laws/Stream.lean) says it one byte at a time. -/
def OutStream.put (o : OutStream) (bs : List Byte) : OutAnswer :=
  match o.room with
  | none => .written { bytes := o.bytes ++ bs, room := none }
  | some n =>
    if bs.length ≤ n then .written { bytes := o.bytes ++ bs, room := some (n - bs.length) }
    else .failed { bytes := o.bytes ++ bs.take n, room := some 0 }

/-- Replace the input stream. -/
def State.setInput (s : State) (i : InStream) : State := { s with input := i }

/-- Replace the output stream. -/
def State.setOutput (s : State) (o : OutStream) : State := { s with output := o }

/-- `c = In()` inside the routine of instruction `i`, which goes on as `k c`; on failure the instruction ends with
IOFailure (R120); while no byte comes the cycle does not complete (R170). -/
def State.inByte (s : State) (i : Instr) (k : Byte → State → Result) : Result :=
  match s.input.next with
  | .byte c rest => k c (s.setInput rest)
  | .failed => .next (s.raise .ioFailure i)
  | .waiting => .fault .inputWait

/-- Write bytes inside the routine of instruction `i`, which goes on as `k`; at the first failing `Out` the
instruction ends with IOFailure, the bytes before it written (R120). -/
def State.outBytes (s : State) (i : Instr) (bs : List Byte) (k : State → Result) : Result :=
  match s.output.put bs with
  | .written o => k (s.setOutput o)
  | .failed o => .next ((s.setOutput o).raise .ioFailure i)

end Sys2Proof.Machine
end

