-- ==== Sys2Proof/Machine/Flags.lean ====
section
/-! DEFINITION. The condition register: computing it and testing it (10_state.md R14 to R16; 43_control.md R100). -/

namespace Sys2Proof.Machine

/-- COND = Negative (R14). -/
def condN : BitVec 3 := 0b100

/-- COND = Zero (R14). -/
def condZ : BitVec 3 := 0b010

/-- COND = Positive (R14). -/
def condP : BitVec 3 := 0b001

/-- The condition code of a 16-bit value (R16). -/
def condOf (v : Word) : BitVec 3 :=
  if v.msb then condN else if v = 0 then condZ else condP

/-- `x[r] <- v; setcc(v)`: how every instruction with a destination register ends (R15, R16). -/
def State.writeResult (s : State) (r : Reg) (v : Word) : State := (s.setReg r v).setCond (condOf v)

/-- BR's test `instr[11:9] & cond != 0` (R52, R100). -/
def State.condMet (s : State) (n z p : Bool) : Bool :=
  ((BitVec.ofBool n ++ BitVec.ofBool z ++ BitVec.ofBool p : BitVec 3) &&& s.cond) != 0

end Sys2Proof.Machine
end

