-- ==== Sys2Proof/Machine/Operands.lean ====
section
/-! DEFINITION. Operand assembly (30_encoding.md R52, R53), effective addresses (42_load_store.md R97), and the bytes
of a cell (20_memory.md R33). -/

namespace Sys2Proof.Machine

/-- `sext_N(v)` (R53): the N-bit field sign-extended to 16 bits. -/
def sext {n : Nat} (v : BitVec n) : Word := v.signExtend 16

/-- `zext_8(c)` (00_scope.md R7). -/
def zext8 (c : Byte) : Word := c.setWidth 16

/-- `v[7:0]` (R33). -/
def lowByte (v : Word) : Byte := v.extractLsb' 0 8

/-- `v[15:8]` (R33). -/
def highByte (v : Word) : Byte := v.extractLsb' 8 8

/-- PC-relative: `pc + sext_9(PCoffset9)`, or `pc + sext_11(PCoffset11)`, modulo 65536 (R97; 43_control.md R100, R102).
`pc` is the incremented value. -/
def State.pcRel {n : Nat} (s : State) (off : BitVec n) : Word := s.pc + sext off

/-- Base plus offset: `x[BaseR] + sext_6(offset6)`, modulo 65536 (R97). -/
def State.baseOff (s : State) (base : Reg) (off : BitVec 6) : Word := s.reg base + sext off

/-- Indirect: the pointer read at the PC-relative address (R94, R95, R97). -/
def State.indirect (s : State) (off : BitVec 9) : Word := s.mem.read (s.pcRel off)

end Sys2Proof.Machine
end

