-- ==== Sys2Proof/Machine/Alu.lean ====
section
/-! DEFINITION. The meanings of ADD, AND and NOT (41_alu.md R80 to R85). Sources are read before the destination is
written; addition wraps modulo 65536 with no overflow detection. -/

namespace Sys2Proof.Machine

/-- ADD, register form (R80). -/
def execAddReg (dr sr1 sr2 : Reg) (s : State) : Result := .next (s.writeResult dr (s.reg sr1 + s.reg sr2))

/-- ADD, immediate form (R81). -/
def execAddImm (dr sr1 : Reg) (imm : BitVec 5) (s : State) : Result := .next (s.writeResult dr (s.reg sr1 + sext imm))

/-- AND, register form (R82). -/
def execAndReg (dr sr1 sr2 : Reg) (s : State) : Result := .next (s.writeResult dr (s.reg sr1 &&& s.reg sr2))

/-- AND, immediate form (R83). -/
def execAndImm (dr sr1 : Reg) (imm : BitVec 5) (s : State) : Result :=
  .next (s.writeResult dr (s.reg sr1 &&& sext imm))

/-- NOT (R84). -/
def execNot (dr sr : Reg) (s : State) : Result := .next (s.writeResult dr (~~~(s.reg sr)))

end Sys2Proof.Machine
end

