-- ==== Sys2Proof/Machine/Control.lean ====
section
/-! DEFINITION. The meanings of BR, JMP, JSR and JSRR (43_control.md R100 to R104). No alignment, no delay slot; COND
is read by BR and written by none. -/

namespace Sys2Proof.Machine

/-- BR (R100). -/
def execBr (n z p : Bool) (off : BitVec 9) (s : State) : Result :=
  .next (if s.condMet n z p then s.setPc (s.pcRel off) else s)

/-- JMP (R101). -/
def execJmp (base : Reg) (s : State) : Result := .next (s.setPc (s.reg base))

/-- JSR (R102): R7 takes the incremented pc, then the pc takes the target. -/
def execJsr (off : BitVec 11) (s : State) : Result := .next (s.link.setPc (s.pcRel off))

/-- JSRR (R103): R7 is written first, and BaseR is read after it. -/
def execJsrr (base : Reg) (s : State) : Result := .next (s.link.setPc (s.link.reg base))

end Sys2Proof.Machine
end

