-- ==== Sys2Proof/Machine/LoadStore.lean ====
section
/-! DEFINITION. The meanings of the loads, the stores and LEA (42_load_store.md R90 to R97). No access can fail
(20_memory.md R31); the loads and LEA set COND from the value written, the stores leave it alone. -/

namespace Sys2Proof.Machine

/-- LD (R90). -/
def execLd (dr : Reg) (off : BitVec 9) (s : State) : Result := .next (s.writeResult dr (s.mem.read (s.pcRel off)))

/-- LDR (R92): the base is read before the destination is written. -/
def execLdr (dr base : Reg) (off : BitVec 6) (s : State) : Result :=
  .next (s.writeResult dr (s.mem.read (s.baseOff base off)))

/-- LDI (R94): the pointer, then the value. -/
def execLdi (dr : Reg) (off : BitVec 9) (s : State) : Result := .next (s.writeResult dr (s.mem.read (s.indirect off)))

/-- LEA (R96): the address itself; memory is not read, and COND is set. -/
def execLea (dr : Reg) (off : BitVec 9) (s : State) : Result := .next (s.writeResult dr (s.pcRel off))

/-- ST (R91). -/
def execSt (sr : Reg) (off : BitVec 9) (s : State) : Result := .next (s.store (s.pcRel off) (s.reg sr))

/-- STR (R93). -/
def execStr (sr base : Reg) (off : BitVec 6) (s : State) : Result := .next (s.store (s.baseOff base off) (s.reg sr))

/-- STI (R95): the pointer is read, then the cell it names is written. -/
def execSti (sr : Reg) (off : BitVec 9) (s : State) : Result := .next (s.store (s.indirect off) (s.reg sr))

end Sys2Proof.Machine
end

