-- ==== Sys2Proof/Machine/Reserved.lean ====
section
/-! DEFINITION. The meanings of the two illegal opcodes (45_reserved.md R130 to R132): each takes IllegalInstruction
and changes nothing else. -/

namespace Sys2Proof.Machine

/-- RTI (R130). -/
def execRti (ign : BitVec 12) (s : State) : Result := .next (s.raise .illegalInstruction (.rti ign))

/-- RES (R131). -/
def execRes (ign : BitVec 12) (s : State) : Result := .next (s.raise .illegalInstruction (.res ign))

end Sys2Proof.Machine
end

