-- ==== Sys2Proof/Machine/Trap.lean ====
section
/-! DEFINITION. The meanings of TRAP and its six built-in routines (44_trap.md R110 to R121). Each begins with R7
(R110) and leaves the pc at the incremented value; the whole routine is one step (40_cycle.md R73). -/

namespace Sys2Proof.Machine

/-- The last actions of GETC and IN: `x[0] <- zext_8(c); setcc(x[0])` (R112, R115). -/
def State.storeChar (s : State) (c : Byte) : State := s.writeResult 0 (zext8 c)

/-- More cells than a walk that ends can visit: after 65536 cells the walk repeats itself, unless the output fails
first, after `room` more bytes, of which each cell takes at least one (R169; assumption log 8). -/
def State.walkFuel (s : State) : Nat := Config.ncell + s.output.room.getD 0

/-- PUTS' loop from cell `a` (R114). -/
def putsLoop (i : Instr) : Nat → Word → State → Result
  | 0, _, _ => .fault .stringNeverEnds
  | fuel + 1, a, s =>
    if s.mem.read a = 0 then .next s
    else s.outBytes i [lowByte (s.mem.read a)] (fun s => putsLoop i fuel (a + 1) s)

/-- PUTSP's loop from cell `a` (R116): low byte, then high byte, up to the first zero byte. -/
def putspLoop (i : Instr) : Nat → Word → State → Result
  | 0, _, _ => .fault .stringNeverEnds
  | fuel + 1, a, s =>
    if lowByte (s.mem.read a) = 0 then .next s
    else s.outBytes i [lowByte (s.mem.read a)] (fun s =>
      if highByte (s.mem.read a) = 0 then .next s
      else s.outBytes i [highByte (s.mem.read a)] (fun s => putspLoop i fuel (a + 1) s))

/-- GETC, vector x20 (R112). -/
def execGetc (ign : BitVec 4) (s : State) : Result :=
  s.link.inByte (.getc ign) (fun c s => .next (s.storeChar c))

/-- OUT, vector x21 (R113). -/
def execOut (ign : BitVec 4) (s : State) : Result :=
  s.link.outBytes (.out ign) [lowByte (s.reg 0)] (fun s => .next s)

/-- PUTS, vector x22 (R114): R0 itself is not changed. -/
def execPuts (ign : BitVec 4) (s : State) : Result := putsLoop (.puts ign) s.walkFuel (s.reg 0) s.link

/-- IN, vector x23 (R115): prompt, read, echo, store, in that order. -/
def execIn (ign : BitVec 4) (s : State) : Result :=
  s.link.outBytes (.inChar ign) Config.inPrompt (fun s =>
    s.inByte (.inChar ign) (fun c s =>
      s.outBytes (.inChar ign) [c] (fun s => .next (s.storeChar c))))

/-- PUTSP, vector x24 (R116): R0 itself is not changed. -/
def execPutsp (ign : BitVec 4) (s : State) : Result := putspLoop (.putsp ign) s.walkFuel (s.reg 0) s.link

/-- HALT, vector x25 (R117): the notice, then RUN = Halted. -/
def execHalt (ign : BitVec 4) (s : State) : Result :=
  s.link.outBytes (.halt ign) Config.haltNotice (fun s => .next s.halt)

/-- TRAP with an undefined vector (R118): R7 is written, then IllegalInstruction. -/
def execTrap (ign : BitVec 4) (vect : BitVec 8) (s : State) : Result :=
  .next (s.link.raise .illegalInstruction (.trap ign vect))

end Sys2Proof.Machine
end

