-- ==== Sys2Proof/Machine/Dispatch.lean ====
section
/-! DEFINITION. The dispatch of 40_cycle.md R72: one arm per row of spec/opcode_table.json. `s` is the state after the
fetch increment (R71). -/

namespace Sys2Proof.Machine

def exec (i : Instr) (s : State) : Host.Outcome State Fault Refusal :=
  match i with
  | .br n z p off => Sys2Proof.Machine.execBr n z p off s
  | .addReg dr sr1 _ sr2 => Sys2Proof.Machine.execAddReg dr sr1 sr2 s
  | .addImm dr sr1 imm => Sys2Proof.Machine.execAddImm dr sr1 imm s
  | .ld dr off => Sys2Proof.Machine.execLd dr off s
  | .st sr off => Sys2Proof.Machine.execSt sr off s
  | .jsr off => Sys2Proof.Machine.execJsr off s
  | .jsrr _ base _ => Sys2Proof.Machine.execJsrr base s
  | .andReg dr sr1 _ sr2 => Sys2Proof.Machine.execAndReg dr sr1 sr2 s
  | .andImm dr sr1 imm => Sys2Proof.Machine.execAndImm dr sr1 imm s
  | .ldr dr base off => Sys2Proof.Machine.execLdr dr base off s
  | .str sr base off => Sys2Proof.Machine.execStr sr base off s
  | .rti ign => Sys2Proof.Machine.execRti ign s
  | .not dr sr _ => Sys2Proof.Machine.execNot dr sr s
  | .ldi dr off => Sys2Proof.Machine.execLdi dr off s
  | .sti sr off => Sys2Proof.Machine.execSti sr off s
  | .jmp _ base _ => Sys2Proof.Machine.execJmp base s
  | .res ign => Sys2Proof.Machine.execRes ign s
  | .lea dr off => Sys2Proof.Machine.execLea dr off s
  | .getc ign => Sys2Proof.Machine.execGetc ign s
  | .out ign => Sys2Proof.Machine.execOut ign s
  | .puts ign => Sys2Proof.Machine.execPuts ign s
  | .inChar ign => Sys2Proof.Machine.execIn ign s
  | .putsp ign => Sys2Proof.Machine.execPutsp ign s
  | .halt ign => Sys2Proof.Machine.execHalt ign s
  | .trap ign vect => Sys2Proof.Machine.execTrap ign vect s

end Sys2Proof.Machine
end

