-- ==== Sys2Proof/Machine/Step.lean ====
section
/-! DEFINITION. One cycle (40_cycle.md R70 to R75), and placing one instruction where the next cycle fetches it. -/

namespace Sys2Proof.Machine

/-- One cycle (R75): fetch, increment, decode, execute. In Halted and in Faulted no cycle takes place (R70; log 6). -/
def step (s : State) : Host.Outcome State Fault Refusal :=
  match s.run with
  | .running => exec (decode s.fetchWord) s.advance
  | .halted => .fault .machineHalted
  | .faulted => .fault .machineFaulted

/-- `s` with the instruction word `w` in the cell the next cycle fetches, the machine running so that it does fetch:
a running state changes in that one cell alone (log 17). -/
def State.withFetchWord (s : State) (nbits w : Nat) : State :=
  { s with mem := s.mem.write s.pc (BitVec.ofNat 16 (w % 2 ^ nbits)), run := .running, fault := none }

end Sys2Proof.Machine
end

