-- ==== Sys2Proof/Machine/Boot.lean ====
section
/-! DEFINITION. What the environment does before the first cycle (70_reset_and_hazards.md R160 to R164): power-on, the
Image Loader's contract, and their composition with start. No step calls any of this. -/

namespace Sys2Proof.Machine

/-- An image (R161): its origin and its data words. -/
structure Image where
  origin : Word
  words : List Word
  deriving DecidableEq, Repr

/-- The 16-bit words of a file's bytes, the most significant byte of each first (R161); an odd count is no image
(assumption log 15). -/
def wordsOfBytes : List Byte → Option (List Word)
  | [] => some []
  | [_] => none
  | hi :: lo :: rest => (wordsOfBytes rest).map (fun ws => (hi ++ lo) :: ws)

/-- The image a file's bytes hold: the first word is the origin (R161). -/
def imageOfBytes (bs : List Byte) : Option Image :=
  match wordsOfBytes bs with
  | some (origin :: words) => some { origin := origin, words := words }
  | _ => none

/-- Place words from address `a` up; words past the top of memory are not loaded and do not wrap (R161). -/
def Memory.loadFrom : Memory → Nat → List Word → Memory
  | m, _, [] => m
  | m, a, w :: ws => if a < Config.ncell then Memory.loadFrom (m.put a w) (a + 1) ws else m

/-- Load one image (R161): only the cells it covers change. -/
def State.loadImage (s : State) (img : Image) : State :=
  { s with mem := s.mem.loadFrom img.origin.toNat img.words }

/-- Power-on (R160): zeroed memory, empty output, not running. `regs` is REG_RESET; `pc0` and `cond0` stand for the
undefined PC and COND before start; not running is shown as Halted (assumption log 16). -/
def State.powerOn (regs : Vector Word 8) (pc0 : Word) (cond0 : BitVec 3) (input : InStream) (room : Option Nat) :
    State where
  regs := regs
  pc := pc0
  cond := cond0
  mem := []
  run := .halted
  fault := none
  input := input
  output := { bytes := [], room := room }

/-- The state at the first fetch (10_state.md R22): power-on, the images in the order given, start. -/
def State.launch (regs : Vector Word 8) (pc0 : Word) (cond0 : BitVec 3) (input : InStream) (room : Option Nat)
    (images : List Image) : State :=
  (images.foldl State.loadImage (State.powerOn regs pc0 cond0 input room)).start

end Sys2Proof.Machine
end

