-- ==== Sys2Proof/Safety.lean ====
section
/-! DEFINITION. What claims call a sound state and a successful run. -/

namespace Sys2Proof.Machine

/-- Exactly one condition flag is active (10_state.md R15). -/
def State.condOneHot (s : State) : Prop := s.cond = condN ∨ s.cond = condZ ∨ s.cond = condP

/-- FAULT says something exactly when RUN = Faulted (R18, R22). -/
def State.faultAgrees (s : State) : Prop := s.fault.isSome = true ↔ s.run = .faulted

/-- The invariant every step keeps: memory in canonical form, COND one-hot, FAULT in step with RUN. -/
def State.Inv (s : State) : Prop := s.mem.wf = true ∧ s.condOneHot ∧ s.faultAgrees

/-- A run is over (70_reset_and_hazards.md R174). -/
def State.over (s : State) : Prop := s.run = .halted ∨ s.run = .faulted

/-- A successful run is one that ends Halted (R174). -/
def State.succeeded (s : State) : Prop := s.run = .halted

end Sys2Proof.Machine
end

