-- ==== Sys2Proof/Certificates/Slice0/Obligations.lean ====
section
/-! DEFINITION. The statements for the provers, from the numbered rules of spec/. `exec i s` runs `i` in the state
after the fetch increment, so `s.pc` is `A + 1` and `s.pc - 1` is `A`. -/

namespace Sys2Proof.Spec

open Sys2Proof.Machine

/-- The condition code of a value by its number (10_state.md R16). -/
def cc (v : Word) : BitVec 3 := if 0x8000 ≤ v.toNat then condN else if v.toNat = 0 then condZ else condP

/-- Every register but those listed is unchanged. -/
def regsKept (s t : State) (except : List Reg) : Prop := ∀ r : Reg, r ∉ except → t.reg r = s.reg r

/-- Every cell reads as before. -/
def memKept (s t : State) : Prop := ∀ a : Word, t.mem.read a = s.mem.read a

/-- Every cell but the one at `a` reads as before. -/
def memKeptBut (s t : State) (a : Word) : Prop := ∀ b : Word, b ≠ a → t.mem.read b = s.mem.read b

/-- Both streams are unchanged. -/
def streamsKept (s t : State) : Prop := t.input = s.input ∧ t.output = s.output

/-- RUN and FAULT are unchanged. -/
def runKept (s t : State) : Prop := t.run = s.run ∧ t.fault = s.fault

/-- An instruction with destination `dr` and result `v`: `dr` and COND take it, nothing else changes. -/
def resultOnly (s t : State) (dr : Reg) (v : Word) : Prop :=
  t.reg dr = v ∧ t.cond = cc v ∧ t.pc = s.pc ∧ regsKept s t [dr] ∧ memKept s t ∧ streamsKept s t ∧ runKept s t

/-- A store of `v` to the cell at `a`: that cell takes it, nothing else changes. -/
def storeOnly (s t : State) (a v : Word) : Prop :=
  t.mem.read a = v ∧ memKeptBut s t a ∧ t.pc = s.pc ∧ t.cond = s.cond ∧ regsKept s t [] ∧ streamsKept s t ∧ runKept s t

/-- A control transfer that writes the registers `ws` and sends the pc to `target`: nothing else changes but those. -/
def jumpOnly (s t : State) (ws : List Reg) (target : Word) : Prop :=
  t.pc = target ∧ t.cond = s.cond ∧ regsKept s t ws ∧ memKept s t ∧ streamsKept s t ∧ runKept s t

/-- What every trap routine leaves alone: all registers but R7 and those in `ws`, the pc and memory; and R7 holds the
incremented pc (44_trap.md R110, R121). -/
def trapFrame (s t : State) (ws : List Reg) : Prop :=
  t.reg 7 = s.pc ∧ regsKept s t (7 :: ws) ∧ t.pc = s.pc ∧ memKept s t

/-- The fault record of instruction `i` executing in `s`, and RUN = Faulted (60_exceptions.md R141, R142). -/
def faultedBy (s t : State) (kind : FaultKind) (i : Instr) : Prop :=
  t.run = .faulted ∧ t.fault = some { kind := kind, addr := s.pc - 1, instr := encode i }

/-- The output accepts at least `n` more bytes. -/
def accepts (o : OutStream) (n : Nat) : Prop := ∀ m, o.room = some m → n ≤ m

/-- `t`'s output is `s`'s with `bs` appended, the room they took given up. -/
def wrote (s t : State) (bs : List Byte) : Prop :=
  t.output.bytes = s.output.bytes ++ bs ∧ t.output.room = s.output.room.map (fun m => m - bs.length)

/-- The registers an instruction writes (10_state.md R11). -/
def writesRegs : Instr → List Reg
  | .addReg dr _ _ _ => [dr] | .addImm dr _ _ => [dr] | .andReg dr _ _ _ => [dr] | .andImm dr _ _ => [dr]
  | .not dr _ _ => [dr] | .ld dr _ => [dr] | .ldi dr _ => [dr] | .lea dr _ => [dr] | .ldr dr _ _ => [dr]
  | .st _ _ => [] | .sti _ _ => [] | .str _ _ _ => [] | .br _ _ _ _ => [] | .jmp _ _ _ => []
  | .jsr _ => [7] | .jsrr _ _ _ => [7]
  | .getc _ => [7, 0] | .inChar _ => [7, 0]
  | .out _ => [7] | .puts _ => [7] | .putsp _ => [7] | .halt _ => [7] | .trap _ _ => [7]
  | .rti _ => [] | .res _ => []

/-- The registers an instruction reads (R11). -/
def readsRegs : Instr → List Reg
  | .addReg _ sr1 _ sr2 => [sr1, sr2] | .addImm _ sr1 _ => [sr1] | .andReg _ sr1 _ sr2 => [sr1, sr2]
  | .andImm _ sr1 _ => [sr1] | .not _ sr _ => [sr]
  | .ld _ _ => [] | .ldi _ _ => [] | .lea _ _ => [] | .ldr _ base _ => [base]
  | .st sr _ => [sr] | .sti sr _ => [sr] | .str sr base _ => [sr, base]
  | .br _ _ _ _ => [] | .jmp _ base _ => [base] | .jsr _ => [] | .jsrr _ base _ => [base]
  | .getc _ => [] | .inChar _ => [] | .out _ => [0] | .puts _ => [0] | .putsp _ => [0] | .halt _ => []
  | .trap _ _ => [] | .rti _ => [] | .res _ => []

/-- The register whose new value sets COND, if the instruction sets it (R11, R15). -/
def condSource : Instr → Option Reg
  | .addReg dr _ _ _ => some dr | .addImm dr _ _ => some dr | .andReg dr _ _ _ => some dr | .andImm dr _ _ => some dr
  | .not dr _ _ => some dr | .ld dr _ => some dr | .ldi dr _ => some dr | .lea dr _ => some dr | .ldr dr _ _ => some dr
  | .getc _ => some 0 | .inChar _ => some 0
  | .st _ _ => none | .sti _ _ => none | .str _ _ _ => none | .br _ _ _ _ => none | .jmp _ _ _ => none
  | .jsr _ => none | .jsrr _ _ _ => none | .out _ => none | .puts _ => none | .putsp _ => none | .halt _ => none
  | .trap _ _ => none | .rti _ => none | .res _ => none

/-- BR, JMP, JSR and JSRR: the instructions that transfer control (R12). -/
def transfers : Instr → Bool
  | .br _ _ _ _ => true | .jmp _ _ _ => true | .jsr _ => true | .jsrr _ _ _ => true | _ => false

/-- ST, STR and STI: the instructions that write memory (20_memory.md R42). -/
def storesToMem : Instr → Bool
  | .st _ _ => true | .str _ _ _ => true | .sti _ _ => true | _ => false

/-- RTI, RES and TRAP with an undefined vector (60_exceptions.md R140). -/
def isIllegal : Instr → Bool
  | .rti _ => true | .res _ => true | .trap _ _ => true | _ => false

/-- GETC and IN, the routines that read the input stream (44_trap.md R111). -/
def readsInput : Instr → Bool
  | .getc _ => true | .inChar _ => true | _ => false

/-- OUT, PUTS, IN, PUTSP and HALT, the routines that write the output stream (R111). -/
def writesOutput : Instr → Bool
  | .out _ => true | .puts _ => true | .inChar _ => true | .putsp _ => true | .halt _ => true | _ => false

/-- JSR, JSRR and every TRAP (70_reset_and_hazards.md R166). -/
def links : Instr → Bool
  | .jsr _ => true | .jsrr _ _ _ => true | .getc _ => true | .out _ => true | .puts _ => true | .inChar _ => true
  | .putsp _ => true | .halt _ => true | .trap _ _ => true | _ => false

/-- The instruction with its ignored bits cleared (30_encoding.md R57). -/
def canonical : Instr → Instr
  | .addReg dr sr1 _ sr2 => .addReg dr sr1 0 sr2
  | .andReg dr sr1 _ sr2 => .andReg dr sr1 0 sr2
  | .not dr sr _ => .not dr sr 0
  | .jmp _ base _ => .jmp 0 base 0
  | .jsrr _ base _ => .jsrr 0 base 0
  | .rti _ => .rti 0 | .res _ => .res 0
  | .getc _ => .getc 0 | .out _ => .out 0 | .puts _ => .puts 0 | .inChar _ => .inChar 0 | .putsp _ => .putsp 0
  | .halt _ => .halt 0 | .trap _ vect => .trap 0 vect
  | .br n z p off => .br n z p off | .addImm dr sr1 imm => .addImm dr sr1 imm | .andImm dr sr1 imm => .andImm dr sr1 imm
  | .ld dr off => .ld dr off | .st sr off => .st sr off | .jsr off => .jsr off | .ldr dr base off => .ldr dr base off
  | .str sr base off => .str sr base off | .ldi dr off => .ldi dr off | .sti sr off => .sti sr off
  | .lea dr off => .lea dr off

/-- Apply `f` to the next state of an outcome. -/
def mapNext (f : State → State) : Result → Result
  | .next t => .next (f t)
  | .fault r => .fault r
  | .refused r => .refused r

/-- A state with the instruction word of its fault record blanked. -/
def forgetWord (t : State) : State := { t with fault := t.fault.map (fun f => { f with instr := 0 }) }

/-- The `j`-th character of the unpacked string at R0: the low byte of the `j`-th cell (44_trap.md R114). -/
def putsChar (s : State) (j : Nat) : Byte := (s.mem.read (s.reg 0 + BitVec.ofNat 16 j)).setWidth 8

/-- The `j`-th byte of the packed string at R0: low byte, then high byte, of each cell in turn (R116). -/
def putspByte (s : State) (j : Nat) : Byte :=
  if j % 2 = 0 then (s.mem.read (s.reg 0 + BitVec.ofNat 16 (j / 2))).setWidth 8
  else (s.mem.read (s.reg 0 + BitVec.ofNat 16 (j / 2)) >>> 8).setWidth 8

/-- The cell at `a` after the images are placed, in order, over a memory whose cell there holds `v`
(70_reset_and_hazards.md R161). -/
def cellAfter (a : Word) (v : Word) : List Image → Word
  | [] => v
  | img :: rest =>
    cellAfter a (if img.origin.toNat ≤ a.toNat ∧ a.toNat < img.origin.toNat + img.words.length
      then img.words.getD (a.toNat - img.origin.toNat) 0 else v) rest

/-- The bytes of an image file: each word's most significant byte first (R161). -/
def fileBytes : List Word → List Byte
  | [] => []
  | w :: ws => (w >>> 8).setWidth 8 :: w.setWidth 8 :: fileBytes ws

end Sys2Proof.Spec

open Sys2Proof Sys2Proof.Machine Sys2Proof.Spec

/-! ### Operands, condition code, addresses -/

/-- R53: sign extension of the 5, 6, 9 and 11-bit fields is the document's law, and keeps the signed reading. -/
def Obligations.SignExtensionLaw : Prop :=
  (∀ v : BitVec 5, sext v = (if v.getLsbD 4 then v.setWidth 16 ||| ((0xFFFF : Word) <<< 5) else v.setWidth 16) ∧
    (sext v).toInt = v.toInt) ∧
  (∀ v : BitVec 6, sext v = (if v.getLsbD 5 then v.setWidth 16 ||| ((0xFFFF : Word) <<< 6) else v.setWidth 16) ∧
    (sext v).toInt = v.toInt) ∧
  (∀ v : BitVec 9, sext v = (if v.getLsbD 8 then v.setWidth 16 ||| ((0xFFFF : Word) <<< 9) else v.setWidth 16) ∧
    (sext v).toInt = v.toInt) ∧
  (∀ v : BitVec 11, sext v = (if v.getLsbD 10 then v.setWidth 16 ||| ((0xFFFF : Word) <<< 11) else v.setWidth 16) ∧
    (sext v).toInt = v.toInt)

/-- R16: the condition code of a value by its number, and `setcc` applies it to the value just written. -/
def Obligations.ConditionCodeOfWrittenValue : Prop :=
  (∀ v : Word, (0x8000 ≤ v.toNat → condOf v = condN) ∧ (v.toNat = 0 → condOf v = condZ) ∧
    (0 < v.toNat → v.toNat < 0x8000 → condOf v = condP)) ∧
  (∀ (s : State) (r : Reg) (v : Word), (s.writeResult r v).reg r = v ∧ (s.writeResult r v).cond = condOf v)

/-- R32, R97: the effective addresses are sums with the signed offset, modulo 65536. -/
def Obligations.EffectiveAddressesWrap : Prop :=
  (∀ (s : State) (off : BitVec 9), ((s.pcRel off).toNat : Int) = ((s.pc.toNat : Int) + off.toInt) % 65536) ∧
  (∀ (s : State) (off : BitVec 11), ((s.pcRel off).toNat : Int) = ((s.pc.toNat : Int) + off.toInt) % 65536) ∧
  (∀ (s : State) (base : Reg) (off : BitVec 6),
    ((s.baseOff base off).toNat : Int) = (((s.reg base).toNat : Int) + off.toInt) % 65536) ∧
  (∀ (s : State) (off : BitVec 9), s.indirect off = s.mem.read (s.pcRel off))

/-! ### Arithmetic and logic -/

/-- R80: ADD, register form. -/
def Obligations.AddRegisterForm : Prop :=
  ∀ (dr sr1 : Reg) (ign : BitVec 2) (sr2 : Reg) (s : State), ∃ t, exec (.addReg dr sr1 ign sr2) s = .next t ∧
    (t.reg dr).toNat = ((s.reg sr1).toNat + (s.reg sr2).toNat) % 65536 ∧ resultOnly s t dr (t.reg dr)

/-- R81, whole: which words are this form and where their fields stand, and what they do. -/
def Obligations.AddImmediateForm : Prop :=
  (∀ w : Word, w.extractLsb' 12 4 = 0b0001#4 → w.getLsbD 5 = true →
    decode w = .addImm (w.extractLsb' 9 3).toFin (w.extractLsb' 6 3).toFin (w.extractLsb' 0 5)) ∧
  (∀ (dr sr1 : Reg) (imm : BitVec 5) (s : State), ∃ t, exec (.addImm dr sr1 imm) s = .next t ∧
    ((t.reg dr).toNat : Int) = (((s.reg sr1).toNat : Int) + imm.toInt) % 65536 ∧ resultOnly s t dr (t.reg dr))

/-- R82, R83: AND in both forms, bit by bit; the immediate is sign-extended first. -/
def Obligations.AndForms : Prop :=
  (∀ (dr sr1 : Reg) (ign : BitVec 2) (sr2 : Reg) (s : State), ∃ t, exec (.andReg dr sr1 ign sr2) s = .next t ∧
    (∀ k < 16, (t.reg dr).getLsbD k = ((s.reg sr1).getLsbD k && (s.reg sr2).getLsbD k)) ∧
    resultOnly s t dr (t.reg dr)) ∧
  (∀ (dr sr1 : Reg) (imm : BitVec 5) (s : State), ∃ t, exec (.andImm dr sr1 imm) s = .next t ∧
    (∀ k < 16, (t.reg dr).getLsbD k = ((s.reg sr1).getLsbD k && imm.getLsbD (min k 4))) ∧
    resultOnly s t dr (t.reg dr))

/-- R84: NOT is `0xFFFF - x`. -/
def Obligations.NotForm : Prop :=
  ∀ (dr sr : Reg) (ign : BitVec 6) (s : State), ∃ t, exec (.not dr sr ign) s = .next t ∧
    (t.reg dr).toNat = 65535 - (s.reg sr).toNat ∧ resultOnly s t dr (t.reg dr)

/-! ### Loads, stores, address -/

/-- R90, R92, R94: LD, LDR and LDI write the cell at their effective address. -/
def Obligations.LoadsWriteTheCellRead : Prop :=
  (∀ (dr : Reg) (off : BitVec 9) (s : State), ∃ t, exec (.ld dr off) s = .next t ∧
    resultOnly s t dr (s.mem.read (s.pcRel off))) ∧
  (∀ (dr base : Reg) (off : BitVec 6) (s : State), ∃ t, exec (.ldr dr base off) s = .next t ∧
    resultOnly s t dr (s.mem.read (s.baseOff base off))) ∧
  (∀ (dr : Reg) (off : BitVec 9) (s : State), ∃ t, exec (.ldi dr off) s = .next t ∧
    resultOnly s t dr (s.mem.read (s.mem.read (s.pcRel off))))

/-- R96: LEA writes the address itself and sets COND from it. -/
def Obligations.LeaWritesTheAddress : Prop :=
  ∀ (dr : Reg) (off : BitVec 9) (s : State), ∃ t, exec (.lea dr off) s = .next t ∧
    ((t.reg dr).toNat : Int) = ((s.pc.toNat : Int) + off.toInt) % 65536 ∧ resultOnly s t dr (t.reg dr)

/-- R91, R93, R95: ST, STR and STI write one cell and nothing else. -/
def Obligations.StoresWriteOneCell : Prop :=
  (∀ (sr : Reg) (off : BitVec 9) (s : State), ∃ t, exec (.st sr off) s = .next t ∧
    storeOnly s t (s.pcRel off) (s.reg sr)) ∧
  (∀ (sr base : Reg) (off : BitVec 6) (s : State), ∃ t, exec (.str sr base off) s = .next t ∧
    storeOnly s t (s.baseOff base off) (s.reg sr)) ∧
  (∀ (sr : Reg) (off : BitVec 9) (s : State), ∃ t, exec (.sti sr off) s = .next t ∧
    storeOnly s t (s.mem.read (s.pcRel off)) (s.reg sr))

/-! ### Control transfer -/

/-- R100: BR is taken iff n meets Negative, z meets Zero or p meets Positive; it writes nothing but the pc. The bits of
COND are the spec's own choice D3. -/
def Obligations.BranchTakenIffConditionMet : Prop :=
  ∀ (n z p : Bool) (off : BitVec 9) (s : State), ∃ t, exec (.br n z p off) s = .next t ∧
    jumpOnly s t [] (if (n && s.cond.getLsbD 2) || (z && s.cond.getLsbD 1) || (p && s.cond.getLsbD 0)
      then s.pcRel off else s.pc)

/-- R58, R100: cond 111 always branches where COND is one-hot; cond 000 never does and changes nothing. -/
def Obligations.BranchAlwaysAndNever : Prop :=
  (∀ (off : BitVec 9) (s : State), s.condOneHot → exec (.br true true true off) s = .next (s.setPc (s.pcRel off))) ∧
  (∀ (off : BitVec 9) (s : State), exec (.br false false false off) s = .next s)

/-- R101: JMP sends the pc to the base register, R7 included, and writes nothing else. -/
def Obligations.JumpToRegister : Prop :=
  ∀ (ignHi : BitVec 3) (base : Reg) (ignLo : BitVec 6) (s : State), ∃ t, exec (.jmp ignHi base ignLo) s = .next t ∧
    jumpOnly s t [] (s.reg base)

/-- R102: JSR puts the return address in R7 and the pc at the target. -/
def Obligations.CallPcRelative : Prop :=
  ∀ (off : BitVec 11) (s : State), ∃ t, exec (.jsr off) s = .next t ∧ t.reg 7 = s.pc ∧
    jumpOnly s t [7] (s.pcRel off)

/-- R103: JSRR writes R7 first and reads BaseR after it, so JSRR R7 falls through. The order is the spec's reading D8. -/
def Obligations.CallThroughRegister : Prop :=
  ∀ (ignHi : BitVec 2) (base : Reg) (ignLo : BitVec 6) (s : State), ∃ t, exec (.jsrr ignHi base ignLo) s = .next t ∧
    t.reg 7 = s.pc ∧ jumpOnly s t [7] (if base = 7 then s.pc else s.reg base)

/-! ### Trap routines -/

/-- R112: GETC, a byte at hand: R0 takes it zero-extended (D9) and COND follows, R7 is linked, one byte is consumed. -/
def Obligations.GetcStoresTheByte : Prop :=
  ∀ (ign : BitVec 4) (s : State) (c : Byte) (rest : InStream), s.input.next = .byte c rest →
    ∃ t, exec (.getc ign) s = .next t ∧ trapFrame s t [0] ∧ (t.reg 0).toNat = c.toNat ∧ t.cond = cc (t.reg 0) ∧
      t.input = rest ∧ t.output = s.output ∧ runKept s t

/-- R115: IN, a byte at hand and an output that takes the prompt and the echo: prompt, then echo, then R0 and COND. -/
def Obligations.InPromptsReadsAndEchoes : Prop :=
  ∀ (ign : BitVec 4) (s : State) (c : Byte) (rest : InStream), s.input.next = .byte c rest →
    accepts s.output (Config.inPrompt.length + 1) →
    ∃ t, exec (.inChar ign) s = .next t ∧ trapFrame s t [0] ∧ (t.reg 0).toNat = c.toNat ∧ t.cond = cc (t.reg 0) ∧
      t.input = rest ∧ wrote s t (Config.inPrompt ++ [c]) ∧ runKept s t

/-- R115, R120: IN whose echo fails (the output takes the prompt and no more): the byte is consumed, R0 and COND are
not written, IOFailure. -/
def Obligations.InEchoFailure : Prop :=
  ∀ (ign : BitVec 4) (s : State) (c : Byte) (rest : InStream), s.input.next = .byte c rest →
    s.output.room = some Config.inPrompt.length →
    ∃ t, exec (.inChar ign) s = .next t ∧ trapFrame s t [] ∧ t.cond = s.cond ∧ t.input = rest ∧
      wrote s t Config.inPrompt ∧ faultedBy s t .ioFailure (.inChar ign)

/-- R112, R115, R120, R142: a failing read ends GETC, and IN after its prompt, with IOFailure; R0 and COND keep their
values. The state at the fault is the spec's choice D10. -/
def Obligations.InputFailureFaults : Prop :=
  (∀ (ign : BitVec 4) (s : State), s.input.next = .failed →
    ∃ t, exec (.getc ign) s = .next t ∧ trapFrame s t [] ∧ t.cond = s.cond ∧ streamsKept s t ∧
      faultedBy s t .ioFailure (.getc ign)) ∧
  (∀ (ign : BitVec 4) (s : State), s.input.next = .failed → accepts s.output Config.inPrompt.length →
    ∃ t, exec (.inChar ign) s = .next t ∧ trapFrame s t [] ∧ t.cond = s.cond ∧ t.input = s.input ∧
      wrote s t Config.inPrompt ∧ faultedBy s t .ioFailure (.inChar ign))

/-- R119, R170: while the input gives neither a byte nor a failure, GETC never completes, nor does IN once its prompt
is out. The named stop is the model's form of it (log entry 7). -/
def Obligations.SilentInputNeverCompletes : Prop :=
  (∀ (ign : BitVec 4) (s : State), s.input.next = .waiting → exec (.getc ign) s = .fault .inputWait) ∧
  (∀ (ign : BitVec 4) (s : State), s.input.next = .waiting → accepts s.output Config.inPrompt.length →
    exec (.inChar ign) s = .fault .inputWait)

/-- R113, R120: OUT appends R0's low byte; where the output takes no more, IOFailure and nothing written. -/
def Obligations.OutWritesTheLowByte : Prop :=
  ∀ (ign : BitVec 4) (s : State), ∃ t, exec (.out ign) s = .next t ∧ trapFrame s t [] ∧ t.cond = s.cond ∧
    t.input = s.input ∧
    (s.output.room ≠ some 0 →
      wrote s t [BitVec.ofNat 8 ((s.reg 0).toNat % 256)] ∧ runKept s t) ∧
    (s.output.room = some 0 → t.output = s.output ∧ faultedBy s t .ioFailure (.out ign))

/-- R114: PUTS writes the low bytes of the `n` non-zero cells from R0 up to the first zero cell, wrapping (D13). -/
def Obligations.PutsWritesTheString : Prop :=
  ∀ (ign : BitVec 4) (s : State) (n : Nat),
    (∀ j < n, s.mem.read (s.reg 0 + BitVec.ofNat 16 j) ≠ 0) → s.mem.read (s.reg 0 + BitVec.ofNat 16 n) = 0 →
    accepts s.output n →
    ∃ t, exec (.puts ign) s = .next t ∧ trapFrame s t [] ∧ t.cond = s.cond ∧ t.input = s.input ∧
      wrote s t ((List.range n).map (putsChar s)) ∧ runKept s t

/-- R116: PUTSP writes the packed bytes from R0 up to the first zero byte (the spec's reading D12), wrapping (D13). -/
def Obligations.PutspWritesThePackedString : Prop :=
  ∀ (ign : BitVec 4) (s : State) (n : Nat),
    (∀ j < n, putspByte s j ≠ 0) → putspByte s n = 0 → accepts s.output n →
    ∃ t, exec (.putsp ign) s = .next t ∧ trapFrame s t [] ∧ t.cond = s.cond ∧ t.input = s.input ∧
      wrote s t ((List.range n).map (putspByte s)) ∧ runKept s t

/-- R114, R116, R120, R142: where the output fails before the string ends, PUTS and PUTSP end with IOFailure and the
bytes before it stay written. -/
def Obligations.StringOutputFailure : Prop :=
  (∀ (ign : BitVec 4) (s : State) (m : Nat), s.output.room = some m →
    (∀ j ≤ m, s.mem.read (s.reg 0 + BitVec.ofNat 16 j) ≠ 0) →
    ∃ t, exec (.puts ign) s = .next t ∧ trapFrame s t [] ∧ t.cond = s.cond ∧ t.input = s.input ∧
      wrote s t ((List.range m).map (putsChar s)) ∧ faultedBy s t .ioFailure (.puts ign)) ∧
  (∀ (ign : BitVec 4) (s : State) (m : Nat), s.output.room = some m → (∀ j ≤ m, putspByte s j ≠ 0) →
    ∃ t, exec (.putsp ign) s = .next t ∧ trapFrame s t [] ∧ t.cond = s.cond ∧ t.input = s.input ∧
      wrote s t ((List.range m).map (putspByte s)) ∧ faultedBy s t .ioFailure (.putsp ign))

/-- R169: PUTS never completes exactly where the output never fails and no cell of memory is zero; PUTSP, where no byte
of memory is. The named stop is the model's form of it (log entry 8). -/
def Obligations.StringRoutinesNeverEndExactly : Prop :=
  (∀ (ign : BitVec 4) (s : State), exec (.puts ign) s = .fault .stringNeverEnds ↔
    (s.output.room = none ∧ ∀ a : Word, s.mem.read a ≠ 0)) ∧
  (∀ (ign : BitVec 4) (s : State), exec (.putsp ign) s = .fault .stringNeverEnds ↔
    (s.output.room = none ∧
      ∀ a : Word, (s.mem.read a).toNat % 256 ≠ 0 ∧ (s.mem.read a).toNat / 256 ≠ 0))

/-- R117, R120: HALT writes the notice, open in the spec (log entry 5), and ends Halted; if the output takes fewer
bytes, it writes those and ends Faulted. -/
def Obligations.HaltStopsTheMachine : Prop :=
  ∀ (ign : BitVec 4) (s : State), ∃ t, exec (.halt ign) s = .next t ∧ trapFrame s t [] ∧ t.cond = s.cond ∧
    t.input = s.input ∧
    (match s.output.room with
     | none => wrote s t Config.haltNotice ∧ t.run = .halted ∧ t.fault = s.fault
     | some m =>
       if Config.haltNotice.length ≤ m then wrote s t Config.haltNotice ∧ t.run = .halted ∧ t.fault = s.fault
       else wrote s t (Config.haltNotice.take m) ∧ faultedBy s t .ioFailure (.halt ign))

/-- R120: inside any routine, the first failing `Out` ends the instruction with IOFailure; the bytes before it stay
written, nothing after it is done. -/
def Obligations.OutputFailureEndsTheRoutine : Prop :=
  ∀ (s : State) (i : Instr) (bs : List Byte) (k : State → Result) (m : Nat), s.output.room = some m → m < bs.length →
    ∃ t, s.outBytes i bs k = .next t ∧ wrote s t (bs.take m) ∧ faultedBy s t .ioFailure i ∧
      t.regs = s.regs ∧ t.pc = s.pc ∧ t.cond = s.cond ∧ t.mem = s.mem ∧ t.input = s.input

/-- R118: TRAP with an undefined vector writes R7, then takes IllegalInstruction; nothing else changes. -/
def Obligations.UndefinedVectorFaults : Prop :=
  ∀ (ign : BitVec 4) (vect : BitVec 8) (s : State), ∃ t, exec (.trap ign vect) s = .next t ∧
    trapFrame s t [] ∧ t.cond = s.cond ∧ streamsKept s t ∧ faultedBy s t .illegalInstruction (.trap ign vect)

/-- R130, R131, R141: RTI and RES take IllegalInstruction; no register, cell, flag or stream changes. The state at a
fault is the spec's choice D6, D7. -/
def Obligations.IllegalOpcodesFault : Prop :=
  (∀ (ign : BitVec 12) (s : State), ∃ t, exec (.rti ign) s = .next t ∧ regsKept s t [] ∧ t.pc = s.pc ∧
    t.cond = s.cond ∧ memKept s t ∧ streamsKept s t ∧ faultedBy s t .illegalInstruction (.rti ign)) ∧
  (∀ (ign : BitVec 12) (s : State), ∃ t, exec (.res ign) s = .next t ∧ regsKept s t [] ∧ t.pc = s.pc ∧
    t.cond = s.cond ∧ memKept s t ∧ streamsKept s t ∧ faultedBy s t .illegalInstruction (.res ign))

/-! ### The step -/

/-- R71: a running machine fetches the word at the pc, increments the pc modulo 65536, whatever the word, and executes
what the word decodes to. -/
def Obligations.StepRunsTheDecodedInstruction : Prop :=
  ∀ s : State, s.run = .running →
    step s = exec (decode (s.mem.read s.pc)) (s.setPc (BitVec.ofNat 16 ((s.pc.toNat + 1) % 65536)))

/-- R70: in Halted and in Faulted there is no step. That the model stops with a named fault is log entry 6. -/
def Obligations.StoppedMachineTakesNoStep : Prop :=
  ∀ s t : State, s.run ≠ .running → step s ≠ .next t

/-- R13: the pc is incremented at fetch, wrapping at 65536, and stays so unless the instruction transfers control. -/
def Obligations.PcIsIncrementedAtFetch : Prop :=
  (∀ s : State, s.run = .running →
    ∃ u : State, step s = exec (decode (s.mem.read s.pc)) u ∧ u.pc.toNat = (s.pc.toNat + 1) % 65536) ∧
  (∀ s t : State, step s = .next t → transfers (decode (s.mem.read s.pc)) = false →
    t.pc.toNat = (s.pc.toNat + 1) % 65536)

/-- R15, R11: COND is written only by the instructions with a destination register and by GETC and IN, from the value
written; a GETC or IN that ends with IOFailure leaves it alone. -/
def Obligations.CondWrittenOnlyByItsSetters : Prop :=
  ∀ (i : Instr) (s t : State), exec i s = .next t →
    match condSource i with
    | none => t.cond = s.cond
    | some r => t.cond = cc (t.reg r) ∨ (readsInput i = true ∧ faultedBy s t .ioFailure i ∧ t.cond = s.cond)

/-- R11, R121: an instruction changes no register but those its row lists. -/
def Obligations.RegistersWrittenAreThoseListed : Prop :=
  ∀ (i : Instr) (s t : State), exec i s = .next t → regsKept s t (writesRegs i)

/-- R11: a register that an instruction's row lists neither as read nor as written does not matter to it: another value
there changes nothing in the outcome but that register. -/
def Obligations.RegistersNotListedDoNotMatter : Prop :=
  ∀ (i : Instr) (s : State) (r : Reg) (v : Word), r ∉ readsRegs i → r ∉ writesRegs i →
    exec i (s.setReg r v) = mapNext (fun t => t.setReg r v) (exec i s)

/-- R15: COND is read by BR only: another value in it changes nothing in any other instruction's outcome but COND. -/
def Obligations.CondReadOnlyByBranch : Prop :=
  ∀ (i : Instr) (s : State) (c : BitVec 3), (∀ n z p off, i ≠ .br n z p off) →
    (exec i (s.setCond c) = exec i s ∨ exec i (s.setCond c) = mapNext (fun t => t.setCond c) (exec i s))

/-- R42, R121: only ST, STR and STI write memory. -/
def Obligations.MemoryWrittenOnlyByStores : Prop :=
  ∀ (i : Instr) (s t : State), exec i s = .next t → storesToMem i = false → memKept s t

/-- R21, R111, R119: only GETC and IN consume input, one byte at most and the first one; only OUT, PUTS, IN, PUTSP and
HALT write output, and what was written stays. -/
def Obligations.StreamsTouchedOnlyByTraps : Prop :=
  ∀ (i : Instr) (s t : State), exec i s = .next t →
    s.output.bytes <+: t.output.bytes ∧
    (writesOutput i = false → t.output = s.output) ∧
    (t.input = s.input ∨ (readsInput i = true ∧ ∃ c, s.input.next = .byte c t.input))

/-- R166, R110: JSR, JSRR and every TRAP, one that faults included, leave the incremented pc in R7. -/
def Obligations.LinkRegisterIsClobbered : Prop :=
  ∀ (i : Instr) (s t : State), exec i s = .next t → links i = true → t.reg 7 = s.pc

/-- R17, R140, R144: only HALT halts; a running machine becomes Faulted only with the record of the instruction that
faulted, IllegalInstruction exactly for the illegal ones, IOFailure only inside the six routines. -/
def Obligations.HowAMachineStops : Prop :=
  ∀ (i : Instr) (s t : State), s.run = .running → exec i s = .next t →
    (t.run = .halted → ∃ ign, i = .halt ign) ∧
    (t.run = .faulted → ∃ kind, faultedBy s t kind i ∧ (kind = .illegalInstruction ↔ isIllegal i = true) ∧
      (kind = .ioFailure → readsInput i = true ∨ writesOutput i = true)) ∧
    (isIllegal i = true → t.run = .faulted)

/-- R31, R75: a running machine whose input does not wait and whose memory holds a zero cell always completes the
cycle: a next state, whatever the instruction. -/
def Obligations.RunningMachineCompletesTheCycle : Prop :=
  ∀ s : State, s.run = .running → s.input.next ≠ .waiting → (∃ a : Word, s.mem.read a = 0) → ∃ t, step s = .next t

/-- R75, R119, R169, R170: a running machine fails to complete a cycle only in GETC or IN waiting for input, or in PUTS
or PUTSP with no end to its string; and no instruction is refused. -/
def Obligations.OnlyWaitsAndEndlessStringsDoNotComplete : Prop :=
  (∀ (s : State) (r : Refusal), step s ≠ .refused r) ∧
  (∀ (s : State) (f : Fault), s.run = .running → step s = .fault f →
    (f = .inputWait ∧ readsInput (decode (s.mem.read s.pc)) = true ∧ s.input.next = .waiting) ∨
    (f = .stringNeverEnds ∧ s.output.room = none ∧ (∀ a : Word, s.mem.read a ≠ 0) ∧
      ∃ ign, decode (s.mem.read s.pc) = .puts ign ∨ decode (s.mem.read s.pc) = .putsp ign))

/-- Every step keeps the invariant: memory in canonical form, COND one-hot (R15), FAULT in step with RUN (R18). -/
def Obligations.StepKeepsInvariant : Prop :=
  ∀ s t : State, s.Inv → step s = .next t → t.Inv

/-- The reset state meets the invariant. Its registers and its input are the model's choice (log entries 2, 3). -/
def Obligations.ResetMeetsInvariant : Prop := State.reset.Inv

/-- Every state at the first fetch meets the invariant, whatever the images, registers and streams (R22, R161). -/
def Obligations.LaunchMeetsInvariant : Prop :=
  ∀ (regs : Vector Word 8) (pc0 : Word) (cond0 : BitVec 3) (input : InStream) (room : Option Nat)
    (images : List Image), (State.launch regs pc0 cond0 input room images).Inv

/-! ### Encoding -/

/-- Decoding the word of a well-formed instruction gives it back, with every operand and every ignored bit. -/
def Obligations.DecodeOfEncode : Prop := ∀ i : Instr, i.wf = true → decode (encode i) = i

/-- Every word decodes to a well-formed instruction whose word it is: no word is shared, none is lost (R55). -/
def Obligations.EncodeOfDecode : Prop := ∀ w : Word, (decode w).wf = true ∧ encode (decode w) = w

/-- R55: every word matches the table row of the instruction it decodes to, and no other row, but for the TRAP
catch-all, which also covers the words of the six routine rows. -/
def Obligations.EveryWordMatchesItsRow : Prop :=
  ∀ w : Word, w &&& rowMask (decode w) = rowMatch (decode w) ∧
    ∀ i : Instr, w &&& rowMask i = rowMatch i →
      (rowMask i = rowMask (decode w) ∧ rowMatch i = rowMatch (decode w)) ∨ (∃ ign vect, i = .trap ign vect)

/-- R56: the words that stop a running machine with IllegalInstruction are 0x8000..0x8FFF, 0xD000..0xDFFF, and
0xF000..0xFFFF with a low byte outside 0x20..0x25. -/
def Obligations.IllegalWordsExactly : Prop :=
  ∀ s : State, s.run = .running →
    ((∃ t, step s = .next t ∧ faultedBy (s.setPc (s.pc + 1)) t .illegalInstruction (decode (s.mem.read s.pc))) ↔
      (0x8000 ≤ (s.mem.read s.pc).toNat ∧ (s.mem.read s.pc).toNat ≤ 0x8FFF) ∨
      (0xD000 ≤ (s.mem.read s.pc).toNat ∧ (s.mem.read s.pc).toNat ≤ 0xDFFF) ∨
      (0xF000 ≤ (s.mem.read s.pc).toNat ∧
        ((s.mem.read s.pc).toNat % 256 < 0x20 ∨ 0x25 < (s.mem.read s.pc).toNat % 256)))

/-- R57 (the spec's choice D4): two instructions that differ only in ignored bits have the same outcome, but for the
word a fault record holds. -/
def Obligations.IgnoredBitsDoNotMatter : Prop :=
  ∀ (i j : Instr) (s : State), canonical i = canonical j →
    mapNext forgetWord (exec i s) = mapNext forgetWord (exec j s)

/-- A few words written out from the spec's encodings decode to what they stand for (R51, R54; opcode numbers D1). -/
def Obligations.SampleWordsDecode : Prop :=
  decode 0b0000101111111100 = .br true false true 0x1FC ∧
  decode 0b0001000001100101 = .addImm 0 1 5 ∧
  decode 0b0111001110011111 = .str 1 6 31 ∧
  decode 0b0100100000000101 = .jsr 5 ∧
  decode 0b1111000000100101 = .halt 0 ∧
  decode 0b1101000000000000 = .res 0

/-! ### Memory, boot, whole-machine properties -/

/-- Memories in canonical form that read alike everywhere are the same data. -/
def Obligations.CanonicalMemoriesReadAlikeAreEqual : Prop :=
  ∀ m n : Memory, m.wf = true → n.wf = true → (∀ a : Word, m.read a = n.read a) → m = n

/-- R40: a store to the cell after the instruction is seen by the very next fetch. -/
def Obligations.StoreIsSeenByTheNextFetch : Prop :=
  ∀ (s : State) (sr : Reg), s.run = .running → decode (s.mem.read s.pc) = .st sr 0 →
    ∃ t, step s = .next t ∧ step t = exec (decode (s.reg sr)) (t.setPc (s.pc + 2))

/-- Start sets COND, PC, RUN and FAULT; the first fetch is from 0x3000 (from R162). That it touches nothing else, the
streams included, and applies to a stopped machine is the spec's choice D15 (R163); that it is a function of every
state, a running one included, is the model's (log entry 16). -/
def Obligations.StartFetchesFromEntry : Prop :=
  ∀ s : State, s.start.cond = condZ ∧ s.start.pc = 0x3000 ∧ s.start.run = .running ∧ s.start.fault = none ∧
    s.start.regs = s.regs ∧ s.start.mem = s.mem ∧ s.start.input = s.input ∧ s.start.output = s.output ∧
    step s.start = exec (decode (s.mem.read 0x3000)) (s.start.setPc 0x3001)

/-- R161: loading an image writes exactly the cells it covers, no word past 0xFFFF, and no register. -/
def Obligations.LoadWritesExactlyTheImage : Prop :=
  ∀ (s : State) (img : Image),
    (∀ a : Word, (s.loadImage img).mem.read a =
      if img.origin.toNat ≤ a.toNat ∧ a.toNat < img.origin.toNat + min img.words.length (65536 - img.origin.toNat)
      then img.words.getD (a.toNat - img.origin.toNat) 0 else s.mem.read a) ∧
    (s.loadImage img).regs = s.regs ∧ (s.loadImage img).pc = s.pc ∧ (s.loadImage img).cond = s.cond ∧
    (s.loadImage img).run = s.run ∧ (s.loadImage img).fault = s.fault ∧ (s.loadImage img).input = s.input ∧
    (s.loadImage img).output = s.output

/-- R161: the bytes of an image file, most significant byte of each word first, give back its origin and its words. -/
def Obligations.ImageFilesAreBigEndian : Prop :=
  ∀ (origin : Word) (words : List Word),
    imageOfBytes (fileBytes (origin :: words)) = some { origin := origin, words := words }

/-- R22: the state at the first fetch, for every REG_RESET, INPUT and list of images; PC and COND before start do not
show. -/
def Obligations.StateAtFirstFetch : Prop :=
  ∀ (regs : Vector Word 8) (pc0 : Word) (cond0 : BitVec 3) (input : InStream) (room : Option Nat)
    (images : List Image) (t : State), t = State.launch regs pc0 cond0 input room images →
    t.pc = 0x3000 ∧ t.cond = condZ ∧ t.run = .running ∧ t.fault = none ∧ t.regs = regs ∧ t.input = input ∧
      t.output.bytes = [] ∧ t.output.room = room ∧ (∀ a : Word, t.mem.read a = cellAfter a 0 images)

/-- R168 (a), R58: through zeroed memory a running machine goes on for ever, one cell a step, round the address space. -/
def Obligations.ZeroedMemoryIsRunThrough : Prop :=
  ∀ (n : Nat) (s : State), s.run = .running → (∀ a : Word, s.mem.read a = 0) →
    Sys2Proof.core.run n s = .next (s.setPc (s.pc + BitVec.ofNat 16 n))

/-- R168 (c): BRnzp to itself, word 0x0FFF, gives the very same state again, for ever. -/
def Obligations.BranchToItselfNeverEnds : Prop :=
  ∀ (n : Nat) (s : State), s.run = .running → s.condOneHot → s.mem.read s.pc = 0x0FFF →
    Sys2Proof.core.run n s = .next s

/-- R38, R147, R174: over any run of steps that answers a state, the invariant is kept, so a run that is over has either
halted with no fault recorded or faulted with one. -/
def Obligations.RunEndsHaltedOrWithARecord : Prop :=
  ∀ (n : Nat) (s t : State), s.Inv → Sys2Proof.core.run n s = .next t → t.over →
    (t.run = .halted ∧ t.fault = none) ∨ (t.run = .faulted ∧ ∃ f, t.fault = some f)
end

