-- ==== Sys2Proof/Laws/Memory.lean ====
section
/-! SUPPORT. Memory: a read after a write, and the canonical form, which every memory operation keeps. -/

namespace Sys2Proof.Machine

theorem Memory.get_filter_ne (m : Memory) {k j : Nat} (h : j ≠ k) :
    Memory.get (m.filter (fun c => c.1 != k)) j = m.get j := by
  induction m with
  | nil => rfl
  | cons c m ih =>
    by_cases hk : c.1 = k
    · have : c.1 ≠ j := fun e => h (e ▸ hk)
      simp [hk, Memory.get, ih, Ne.symm h]
    · by_cases hj : c.1 = j <;> simp [hk, hj, Memory.get, ih, h]

theorem Memory.get_filter_same (m : Memory) (k : Nat) :
    Memory.get (m.filter (fun c => c.1 != k)) k = Memory.unlisted := by
  induction m with
  | nil => rfl
  | cons c m ih => by_cases hk : c.1 = k <;> simp [hk, Memory.get, ih]

theorem Memory.get_insert_same {m : Memory} {k : Nat} (v : Word) (h : ∀ c ∈ m, c.1 ≠ k) :
    (Memory.insert k v m).get k = v := by
  induction m with
  | nil => simp [Memory.insert, Memory.get]
  | cons c m ih =>
    have hc := h c (by simp)
    unfold Memory.insert
    split
    · simp [Memory.get]
    · simp [Memory.get, hc, ih (fun d hd => h d (by simp [hd]))]

theorem Memory.get_insert_ne (m : Memory) {k j : Nat} (v : Word) (h : j ≠ k) :
    (Memory.insert k v m).get j = m.get j := by
  induction m with
  | nil => simp [Memory.insert, Memory.get, Ne.symm h]
  | cons c m ih =>
    unfold Memory.insert
    split
    · simp [Memory.get, Ne.symm h]
    · simp [Memory.get, ih]

theorem Memory.get_put_same (m : Memory) (k : Nat) (v : Word) : (m.put k v).get k = v := by
  unfold Memory.put
  dsimp only
  split
  · next h => rw [Memory.get_filter_same, h]
  · exact Memory.get_insert_same v (by simp)

theorem Memory.get_put_ne (m : Memory) {k j : Nat} (v : Word) (h : j ≠ k) : (m.put k v).get j = m.get j := by
  unfold Memory.put
  dsimp only
  split
  · exact m.get_filter_ne h
  · rw [Memory.get_insert_ne _ v h, m.get_filter_ne h]

/-- A read after a write to the same cell gives the value written (20_memory.md R31). -/
@[simp] theorem Memory.read_write_same (m : Memory) (a v : Word) : (m.write a v).read a = v :=
  m.get_put_same a.toNat v

/-- A write leaves every other cell alone (R31). -/
theorem Memory.read_write_ne (m : Memory) {a b : Word} (v : Word) (h : b ≠ a) :
    (m.write a v).read b = m.read b :=
  m.get_put_ne v (fun e => h (BitVec.eq_of_toNat_eq e))

/-- The canonical form, spelt out. -/
theorem Memory.wf_iff (m : Memory) : m.wf = true ↔
    m.Pairwise (fun c d => c.1 < d.1) ∧ ∀ c ∈ m, c.1 < Config.ncell ∧ c.2 ≠ Memory.unlisted := by
  simp [Memory.wf]

theorem Memory.mem_insert {m : Memory} {k : Nat} {v : Word} {c : Nat × Word} :
    c ∈ Memory.insert k v m ↔ c = (k, v) ∨ c ∈ m := by
  induction m with
  | nil => simp [Memory.insert]
  | cons d m ih =>
    unfold Memory.insert
    split
    · simp
    · simp [ih, or_left_comm]

theorem Memory.pairwise_insert {m : Memory} {k : Nat} (v : Word) (hp : m.Pairwise (fun c d => c.1 < d.1))
    (hk : ∀ c ∈ m, c.1 ≠ k) : (Memory.insert k v m).Pairwise (fun c d => c.1 < d.1) := by
  induction m with
  | nil => simp [Memory.insert]
  | cons c m ih =>
    obtain ⟨hc, hm⟩ := List.pairwise_cons.1 hp
    have hck := hk c (by simp)
    unfold Memory.insert
    split
    · next hlt =>
      refine List.pairwise_cons.2 ⟨fun d hd => ?_, hp⟩
      rcases List.mem_cons.1 hd with rfl | hd
      · exact hlt
      · exact Nat.lt_trans hlt (hc d hd)
    · next hlt =>
      refine List.pairwise_cons.2 ⟨fun d hd => ?_, ih hm (fun d hd => hk d (by simp [hd]))⟩
      rcases Memory.mem_insert.1 hd with rfl | hd
      · show c.1 < k
        omega
      · exact hc d hd

/-- Setting a cell of the space keeps the canonical form. -/
theorem Memory.put_wf {m : Memory} (h : m.wf = true) {k : Nat} (hk : k < Config.ncell) (v : Word) :
    (m.put k v).wf = true := by
  obtain ⟨hp, hm⟩ := m.wf_iff.1 h
  have hp' := hp.filter (fun c => c.1 != k)
  rw [Memory.wf_iff]
  unfold Memory.put
  dsimp only
  split
  · exact ⟨hp', fun c hc => hm c (List.mem_of_mem_filter hc)⟩
  · next hv =>
    refine ⟨Memory.pairwise_insert v hp' (by simp), fun c hc => ?_⟩
    rcases Memory.mem_insert.1 hc with rfl | hc
    · exact ⟨hk, hv⟩
    · exact hm c (List.mem_of_mem_filter hc)

theorem Memory.write_wf {m : Memory} (h : m.wf = true) (a v : Word) : (m.write a v).wf = true :=
  Memory.put_wf h a.isLt v

/-- Loading an image keeps the canonical form (70_reset_and_hazards.md R161). -/
theorem Memory.loadFrom_wf (ws : List Word) : ∀ {m : Memory} (a : Nat), m.wf = true → (m.loadFrom a ws).wf = true := by
  induction ws with
  | nil => intro m a h; exact h
  | cons w ws ih =>
    intro m a h
    unfold Memory.loadFrom
    split
    · next ha => exact ih (a + 1) (Memory.put_wf h ha w)
    · exact h

end Sys2Proof.Machine
end

