-- ==== Sys2Proof/Laws/PerInstr.lean ====
section
/-! SUPPORT. Per-instruction facts about the instructions as syntax. Family `TableRow`: the word of every instruction
matches the row of spec/opcode_table.json it belongs to (30_encoding.md R55). -/

namespace Sys2Proof.Laws.TableRow

/-- `encode i & mask = match`, mask and match those of `i`'s row. -/
def Statement (i : Instr) : Prop := encode i &&& rowMask i = rowMatch i

theorem br (n z p : Bool) (off : BitVec 9) : Statement (.br n z p off) := by
  change (0x0#4 ++ BitVec.ofBool n ++ BitVec.ofBool z ++ BitVec.ofBool p ++ off) &&& (0xF#4 ++ 0#1 ++ 0#1 ++ 0#1 ++ 0#9)
    = (0x0#4 ++ 0#1 ++ 0#1 ++ 0#1 ++ 0#9)
  simp only [BitVec.and_append, BitVec.and_zero]; rfl

theorem addReg (dr sr1 : Reg) (ign : BitVec 2) (sr2 : Reg) : Statement (.addReg dr sr1 ign sr2) := by
  change (0x1#4 ++ regBits dr ++ regBits sr1 ++ 0x0#1 ++ ign ++ regBits sr2) &&& (0xF#4 ++ 0#3 ++ 0#3 ++ 0x1#1 ++ 0#2 ++ 0#3)
    = (0x1#4 ++ 0#3 ++ 0#3 ++ 0x0#1 ++ 0#2 ++ 0#3)
  simp only [BitVec.and_append, BitVec.and_zero]; rfl

theorem addImm (dr sr1 : Reg) (imm : BitVec 5) : Statement (.addImm dr sr1 imm) := by
  change (0x1#4 ++ regBits dr ++ regBits sr1 ++ 0x1#1 ++ imm) &&& (0xF#4 ++ 0#3 ++ 0#3 ++ 0x1#1 ++ 0#5)
    = (0x1#4 ++ 0#3 ++ 0#3 ++ 0x1#1 ++ 0#5)
  simp only [BitVec.and_append, BitVec.and_zero]; rfl

theorem ld (dr : Reg) (off : BitVec 9) : Statement (.ld dr off) := by
  change (0x2#4 ++ regBits dr ++ off) &&& (0xF#4 ++ 0#3 ++ 0#9)
    = (0x2#4 ++ 0#3 ++ 0#9)
  simp only [BitVec.and_append, BitVec.and_zero]; rfl

theorem st (sr : Reg) (off : BitVec 9) : Statement (.st sr off) := by
  change (0x3#4 ++ regBits sr ++ off) &&& (0xF#4 ++ 0#3 ++ 0#9)
    = (0x3#4 ++ 0#3 ++ 0#9)
  simp only [BitVec.and_append, BitVec.and_zero]; rfl

theorem jsr (off : BitVec 11) : Statement (.jsr off) := by
  change (0x4#4 ++ 0x1#1 ++ off) &&& (0xF#4 ++ 0x1#1 ++ 0#11)
    = (0x4#4 ++ 0x1#1 ++ 0#11)
  simp only [BitVec.and_append, BitVec.and_zero]; rfl

theorem jsrr (ignHi : BitVec 2) (base : Reg) (ignLo : BitVec 6) : Statement (.jsrr ignHi base ignLo) := by
  change (0x4#4 ++ 0x0#1 ++ ignHi ++ regBits base ++ ignLo) &&& (0xF#4 ++ 0x1#1 ++ 0#2 ++ 0#3 ++ 0#6)
    = (0x4#4 ++ 0x0#1 ++ 0#2 ++ 0#3 ++ 0#6)
  simp only [BitVec.and_append, BitVec.and_zero]; rfl

theorem andReg (dr sr1 : Reg) (ign : BitVec 2) (sr2 : Reg) : Statement (.andReg dr sr1 ign sr2) := by
  change (0x5#4 ++ regBits dr ++ regBits sr1 ++ 0x0#1 ++ ign ++ regBits sr2) &&& (0xF#4 ++ 0#3 ++ 0#3 ++ 0x1#1 ++ 0#2 ++ 0#3)
    = (0x5#4 ++ 0#3 ++ 0#3 ++ 0x0#1 ++ 0#2 ++ 0#3)
  simp only [BitVec.and_append, BitVec.and_zero]; rfl

theorem andImm (dr sr1 : Reg) (imm : BitVec 5) : Statement (.andImm dr sr1 imm) := by
  change (0x5#4 ++ regBits dr ++ regBits sr1 ++ 0x1#1 ++ imm) &&& (0xF#4 ++ 0#3 ++ 0#3 ++ 0x1#1 ++ 0#5)
    = (0x5#4 ++ 0#3 ++ 0#3 ++ 0x1#1 ++ 0#5)
  simp only [BitVec.and_append, BitVec.and_zero]; rfl

theorem ldr (dr base : Reg) (off : BitVec 6) : Statement (.ldr dr base off) := by
  change (0x6#4 ++ regBits dr ++ regBits base ++ off) &&& (0xF#4 ++ 0#3 ++ 0#3 ++ 0#6)
    = (0x6#4 ++ 0#3 ++ 0#3 ++ 0#6)
  simp only [BitVec.and_append, BitVec.and_zero]; rfl

theorem str (sr base : Reg) (off : BitVec 6) : Statement (.str sr base off) := by
  change (0x7#4 ++ regBits sr ++ regBits base ++ off) &&& (0xF#4 ++ 0#3 ++ 0#3 ++ 0#6)
    = (0x7#4 ++ 0#3 ++ 0#3 ++ 0#6)
  simp only [BitVec.and_append, BitVec.and_zero]; rfl

theorem rti (ign : BitVec 12) : Statement (.rti ign) := by
  change (0x8#4 ++ ign) &&& (0xF#4 ++ 0#12)
    = (0x8#4 ++ 0#12)
  simp only [BitVec.and_append, BitVec.and_zero]; rfl

theorem not (dr sr : Reg) (ign : BitVec 6) : Statement (.not dr sr ign) := by
  change (0x9#4 ++ regBits dr ++ regBits sr ++ ign) &&& (0xF#4 ++ 0#3 ++ 0#3 ++ 0#6)
    = (0x9#4 ++ 0#3 ++ 0#3 ++ 0#6)
  simp only [BitVec.and_append, BitVec.and_zero]; rfl

theorem ldi (dr : Reg) (off : BitVec 9) : Statement (.ldi dr off) := by
  change (0xA#4 ++ regBits dr ++ off) &&& (0xF#4 ++ 0#3 ++ 0#9)
    = (0xA#4 ++ 0#3 ++ 0#9)
  simp only [BitVec.and_append, BitVec.and_zero]; rfl

theorem sti (sr : Reg) (off : BitVec 9) : Statement (.sti sr off) := by
  change (0xB#4 ++ regBits sr ++ off) &&& (0xF#4 ++ 0#3 ++ 0#9)
    = (0xB#4 ++ 0#3 ++ 0#9)
  simp only [BitVec.and_append, BitVec.and_zero]; rfl

theorem jmp (ignHi : BitVec 3) (base : Reg) (ignLo : BitVec 6) : Statement (.jmp ignHi base ignLo) := by
  change (0xC#4 ++ ignHi ++ regBits base ++ ignLo) &&& (0xF#4 ++ 0#3 ++ 0#3 ++ 0#6)
    = (0xC#4 ++ 0#3 ++ 0#3 ++ 0#6)
  simp only [BitVec.and_append, BitVec.and_zero]; rfl

theorem res (ign : BitVec 12) : Statement (.res ign) := by
  change (0xD#4 ++ ign) &&& (0xF#4 ++ 0#12)
    = (0xD#4 ++ 0#12)
  simp only [BitVec.and_append, BitVec.and_zero]; rfl

theorem lea (dr : Reg) (off : BitVec 9) : Statement (.lea dr off) := by
  change (0xE#4 ++ regBits dr ++ off) &&& (0xF#4 ++ 0#3 ++ 0#9)
    = (0xE#4 ++ 0#3 ++ 0#9)
  simp only [BitVec.and_append, BitVec.and_zero]; rfl

theorem getc (ign : BitVec 4) : Statement (.getc ign) := by
  change (0xF#4 ++ ign ++ 0x20#8) &&& (0xF#4 ++ 0#4 ++ 0xFF#8)
    = (0xF#4 ++ 0#4 ++ 0x20#8)
  simp only [BitVec.and_append, BitVec.and_zero]; rfl

theorem out (ign : BitVec 4) : Statement (.out ign) := by
  change (0xF#4 ++ ign ++ 0x21#8) &&& (0xF#4 ++ 0#4 ++ 0xFF#8)
    = (0xF#4 ++ 0#4 ++ 0x21#8)
  simp only [BitVec.and_append, BitVec.and_zero]; rfl

theorem puts (ign : BitVec 4) : Statement (.puts ign) := by
  change (0xF#4 ++ ign ++ 0x22#8) &&& (0xF#4 ++ 0#4 ++ 0xFF#8)
    = (0xF#4 ++ 0#4 ++ 0x22#8)
  simp only [BitVec.and_append, BitVec.and_zero]; rfl

theorem inChar (ign : BitVec 4) : Statement (.inChar ign) := by
  change (0xF#4 ++ ign ++ 0x23#8) &&& (0xF#4 ++ 0#4 ++ 0xFF#8)
    = (0xF#4 ++ 0#4 ++ 0x23#8)
  simp only [BitVec.and_append, BitVec.and_zero]; rfl

theorem putsp (ign : BitVec 4) : Statement (.putsp ign) := by
  change (0xF#4 ++ ign ++ 0x24#8) &&& (0xF#4 ++ 0#4 ++ 0xFF#8)
    = (0xF#4 ++ 0#4 ++ 0x24#8)
  simp only [BitVec.and_append, BitVec.and_zero]; rfl

theorem halt (ign : BitVec 4) : Statement (.halt ign) := by
  change (0xF#4 ++ ign ++ 0x25#8) &&& (0xF#4 ++ 0#4 ++ 0xFF#8)
    = (0xF#4 ++ 0#4 ++ 0x25#8)
  simp only [BitVec.and_append, BitVec.and_zero]; rfl

theorem trap (ign : BitVec 4) (vect : BitVec 8) : Statement (.trap ign vect) := by
  change (0xF#4 ++ ign ++ vect) &&& (0xF#4 ++ 0#4 ++ 0#8)
    = (0xF#4 ++ 0#4 ++ 0#8)
  simp only [BitVec.and_append, BitVec.and_zero]; rfl

end Sys2Proof.Laws.TableRow
end

