-- ==== Sys2Proof/Laws/State.lean ====
section
/-! SUPPORT. What each update of the state does to each field, and what reading a register gives after it: the lemmas
later proofs use so that no record update is unfolded again. -/

namespace Sys2Proof.Machine

@[simp] theorem State.setReg_regs (s : State) (r : Reg) (v : Word) : (s.setReg r v).regs = s.regs.set r.val v r.isLt := rfl
@[simp] theorem State.setReg_pc (s : State) (r : Reg) (v : Word) : (s.setReg r v).pc = s.pc := rfl
@[simp] theorem State.setReg_cond (s : State) (r : Reg) (v : Word) : (s.setReg r v).cond = s.cond := rfl
@[simp] theorem State.setReg_mem (s : State) (r : Reg) (v : Word) : (s.setReg r v).mem = s.mem := rfl
@[simp] theorem State.setReg_run (s : State) (r : Reg) (v : Word) : (s.setReg r v).run = s.run := rfl
@[simp] theorem State.setReg_fault (s : State) (r : Reg) (v : Word) : (s.setReg r v).fault = s.fault := rfl
@[simp] theorem State.setReg_input (s : State) (r : Reg) (v : Word) : (s.setReg r v).input = s.input := rfl
@[simp] theorem State.setReg_output (s : State) (r : Reg) (v : Word) : (s.setReg r v).output = s.output := rfl

@[simp] theorem State.setPc_regs (s : State) (v : Word) : (s.setPc v).regs = s.regs := rfl
@[simp] theorem State.setPc_pc (s : State) (v : Word) : (s.setPc v).pc = v := rfl
@[simp] theorem State.setPc_cond (s : State) (v : Word) : (s.setPc v).cond = s.cond := rfl
@[simp] theorem State.setPc_mem (s : State) (v : Word) : (s.setPc v).mem = s.mem := rfl
@[simp] theorem State.setPc_run (s : State) (v : Word) : (s.setPc v).run = s.run := rfl
@[simp] theorem State.setPc_fault (s : State) (v : Word) : (s.setPc v).fault = s.fault := rfl
@[simp] theorem State.setPc_input (s : State) (v : Word) : (s.setPc v).input = s.input := rfl
@[simp] theorem State.setPc_output (s : State) (v : Word) : (s.setPc v).output = s.output := rfl

@[simp] theorem State.setCond_regs (s : State) (c : BitVec 3) : (s.setCond c).regs = s.regs := rfl
@[simp] theorem State.setCond_pc (s : State) (c : BitVec 3) : (s.setCond c).pc = s.pc := rfl
@[simp] theorem State.setCond_cond (s : State) (c : BitVec 3) : (s.setCond c).cond = c := rfl
@[simp] theorem State.setCond_mem (s : State) (c : BitVec 3) : (s.setCond c).mem = s.mem := rfl
@[simp] theorem State.setCond_run (s : State) (c : BitVec 3) : (s.setCond c).run = s.run := rfl
@[simp] theorem State.setCond_fault (s : State) (c : BitVec 3) : (s.setCond c).fault = s.fault := rfl
@[simp] theorem State.setCond_input (s : State) (c : BitVec 3) : (s.setCond c).input = s.input := rfl
@[simp] theorem State.setCond_output (s : State) (c : BitVec 3) : (s.setCond c).output = s.output := rfl

@[simp] theorem State.link_regs (s : State) : (s.link).regs = s.regs.set 7 s.pc := rfl
@[simp] theorem State.link_pc (s : State) : (s.link).pc = s.pc := rfl
@[simp] theorem State.link_cond (s : State) : (s.link).cond = s.cond := rfl
@[simp] theorem State.link_mem (s : State) : (s.link).mem = s.mem := rfl
@[simp] theorem State.link_run (s : State) : (s.link).run = s.run := rfl
@[simp] theorem State.link_fault (s : State) : (s.link).fault = s.fault := rfl
@[simp] theorem State.link_input (s : State) : (s.link).input = s.input := rfl
@[simp] theorem State.link_output (s : State) : (s.link).output = s.output := rfl

@[simp] theorem State.store_regs (s : State) (a v : Word) : (s.store a v).regs = s.regs := rfl
@[simp] theorem State.store_pc (s : State) (a v : Word) : (s.store a v).pc = s.pc := rfl
@[simp] theorem State.store_cond (s : State) (a v : Word) : (s.store a v).cond = s.cond := rfl
@[simp] theorem State.store_mem (s : State) (a v : Word) : (s.store a v).mem = s.mem.write a v := rfl
@[simp] theorem State.store_run (s : State) (a v : Word) : (s.store a v).run = s.run := rfl
@[simp] theorem State.store_fault (s : State) (a v : Word) : (s.store a v).fault = s.fault := rfl
@[simp] theorem State.store_input (s : State) (a v : Word) : (s.store a v).input = s.input := rfl
@[simp] theorem State.store_output (s : State) (a v : Word) : (s.store a v).output = s.output := rfl

@[simp] theorem State.advance_regs (s : State) : (s.advance).regs = s.regs := rfl
@[simp] theorem State.advance_pc (s : State) : (s.advance).pc = s.pc + 1 := rfl
@[simp] theorem State.advance_cond (s : State) : (s.advance).cond = s.cond := rfl
@[simp] theorem State.advance_mem (s : State) : (s.advance).mem = s.mem := rfl
@[simp] theorem State.advance_run (s : State) : (s.advance).run = s.run := rfl
@[simp] theorem State.advance_fault (s : State) : (s.advance).fault = s.fault := rfl
@[simp] theorem State.advance_input (s : State) : (s.advance).input = s.input := rfl
@[simp] theorem State.advance_output (s : State) : (s.advance).output = s.output := rfl

@[simp] theorem State.raise_regs (s : State) (k : FaultKind) (i : Instr) : (s.raise k i).regs = s.regs := rfl
@[simp] theorem State.raise_pc (s : State) (k : FaultKind) (i : Instr) : (s.raise k i).pc = s.pc := rfl
@[simp] theorem State.raise_cond (s : State) (k : FaultKind) (i : Instr) : (s.raise k i).cond = s.cond := rfl
@[simp] theorem State.raise_mem (s : State) (k : FaultKind) (i : Instr) : (s.raise k i).mem = s.mem := rfl
@[simp] theorem State.raise_run (s : State) (k : FaultKind) (i : Instr) : (s.raise k i).run = .faulted := rfl
@[simp] theorem State.raise_fault (s : State) (k : FaultKind) (i : Instr) : (s.raise k i).fault = some { kind := k, addr := s.pc - 1, instr := encode i } := rfl
@[simp] theorem State.raise_input (s : State) (k : FaultKind) (i : Instr) : (s.raise k i).input = s.input := rfl
@[simp] theorem State.raise_output (s : State) (k : FaultKind) (i : Instr) : (s.raise k i).output = s.output := rfl

@[simp] theorem State.halt_regs (s : State) : (s.halt).regs = s.regs := rfl
@[simp] theorem State.halt_pc (s : State) : (s.halt).pc = s.pc := rfl
@[simp] theorem State.halt_cond (s : State) : (s.halt).cond = s.cond := rfl
@[simp] theorem State.halt_mem (s : State) : (s.halt).mem = s.mem := rfl
@[simp] theorem State.halt_run (s : State) : (s.halt).run = .halted := rfl
@[simp] theorem State.halt_fault (s : State) : (s.halt).fault = s.fault := rfl
@[simp] theorem State.halt_input (s : State) : (s.halt).input = s.input := rfl
@[simp] theorem State.halt_output (s : State) : (s.halt).output = s.output := rfl

@[simp] theorem State.start_regs (s : State) : (s.start).regs = s.regs := rfl
@[simp] theorem State.start_pc (s : State) : (s.start).pc = Config.entry := rfl
@[simp] theorem State.start_cond (s : State) : (s.start).cond = 0b010 := rfl
@[simp] theorem State.start_mem (s : State) : (s.start).mem = s.mem := rfl
@[simp] theorem State.start_run (s : State) : (s.start).run = .running := rfl
@[simp] theorem State.start_fault (s : State) : (s.start).fault = none := rfl
@[simp] theorem State.start_input (s : State) : (s.start).input = s.input := rfl
@[simp] theorem State.start_output (s : State) : (s.start).output = s.output := rfl

@[simp] theorem State.setInput_regs (s : State) (x : InStream) : (s.setInput x).regs = s.regs := rfl
@[simp] theorem State.setInput_pc (s : State) (x : InStream) : (s.setInput x).pc = s.pc := rfl
@[simp] theorem State.setInput_cond (s : State) (x : InStream) : (s.setInput x).cond = s.cond := rfl
@[simp] theorem State.setInput_mem (s : State) (x : InStream) : (s.setInput x).mem = s.mem := rfl
@[simp] theorem State.setInput_run (s : State) (x : InStream) : (s.setInput x).run = s.run := rfl
@[simp] theorem State.setInput_fault (s : State) (x : InStream) : (s.setInput x).fault = s.fault := rfl
@[simp] theorem State.setInput_input (s : State) (x : InStream) : (s.setInput x).input = x := rfl
@[simp] theorem State.setInput_output (s : State) (x : InStream) : (s.setInput x).output = s.output := rfl

@[simp] theorem State.setOutput_regs (s : State) (x : OutStream) : (s.setOutput x).regs = s.regs := rfl
@[simp] theorem State.setOutput_pc (s : State) (x : OutStream) : (s.setOutput x).pc = s.pc := rfl
@[simp] theorem State.setOutput_cond (s : State) (x : OutStream) : (s.setOutput x).cond = s.cond := rfl
@[simp] theorem State.setOutput_mem (s : State) (x : OutStream) : (s.setOutput x).mem = s.mem := rfl
@[simp] theorem State.setOutput_run (s : State) (x : OutStream) : (s.setOutput x).run = s.run := rfl
@[simp] theorem State.setOutput_fault (s : State) (x : OutStream) : (s.setOutput x).fault = s.fault := rfl
@[simp] theorem State.setOutput_input (s : State) (x : OutStream) : (s.setOutput x).input = s.input := rfl
@[simp] theorem State.setOutput_output (s : State) (x : OutStream) : (s.setOutput x).output = x := rfl

/-! ### Reading a register after an update -/

@[simp] theorem State.reg_setReg_same (s : State) (r : Reg) (v : Word) : (s.setReg r v).reg r = v := by
  simp [State.reg]

theorem State.reg_setReg_ne (s : State) {r q : Reg} (v : Word) (h : q ≠ r) : (s.setReg r v).reg q = s.reg q := by
  have : r.val ≠ q.val := fun e => h (Fin.ext e.symm)
  simp [State.reg, this]

theorem State.reg_setReg (s : State) (r q : Reg) (v : Word) :
    (s.setReg r v).reg q = if q = r then v else s.reg q := by
  split
  · next h => subst h; simp
  · next h => exact s.reg_setReg_ne v h

@[simp] theorem State.reg_link_same (s : State) : s.link.reg 7 = s.pc := s.reg_setReg_same 7 s.pc

theorem State.reg_link_ne (s : State) {q : Reg} (h : q ≠ 7) : s.link.reg q = s.reg q := s.reg_setReg_ne _ h

@[simp] theorem State.reg_setPc (s : State) (v : Word) (q : Reg) : (s.setPc v).reg q = s.reg q := rfl
@[simp] theorem State.reg_setCond (s : State) (c : BitVec 3) (q : Reg) : (s.setCond c).reg q = s.reg q := rfl
@[simp] theorem State.reg_store (s : State) (a v : Word) (q : Reg) : (s.store a v).reg q = s.reg q := rfl
@[simp] theorem State.reg_advance (s : State) (q : Reg) : (s.advance).reg q = s.reg q := rfl
@[simp] theorem State.reg_raise (s : State) (k : FaultKind) (i : Instr) (q : Reg) : (s.raise k i).reg q = s.reg q := rfl
@[simp] theorem State.reg_halt (s : State) (q : Reg) : (s.halt).reg q = s.reg q := rfl
@[simp] theorem State.reg_start (s : State) (q : Reg) : (s.start).reg q = s.reg q := rfl
@[simp] theorem State.reg_setInput (s : State) (x : InStream) (q : Reg) : (s.setInput x).reg q = s.reg q := rfl
@[simp] theorem State.reg_setOutput (s : State) (x : OutStream) (q : Reg) : (s.setOutput x).reg q = s.reg q := rfl

/-! ### `writeResult` -/

@[simp] theorem State.writeResult_pc (s : State) (r : Reg) (v : Word) : (s.writeResult r v).pc = s.pc := rfl
@[simp] theorem State.writeResult_cond (s : State) (r : Reg) (v : Word) : (s.writeResult r v).cond = condOf v := rfl
@[simp] theorem State.writeResult_mem (s : State) (r : Reg) (v : Word) : (s.writeResult r v).mem = s.mem := rfl
@[simp] theorem State.writeResult_run (s : State) (r : Reg) (v : Word) : (s.writeResult r v).run = s.run := rfl
@[simp] theorem State.writeResult_fault (s : State) (r : Reg) (v : Word) : (s.writeResult r v).fault = s.fault := rfl
@[simp] theorem State.writeResult_input (s : State) (r : Reg) (v : Word) : (s.writeResult r v).input = s.input := rfl
@[simp] theorem State.writeResult_output (s : State) (r : Reg) (v : Word) : (s.writeResult r v).output = s.output := rfl

@[simp] theorem State.reg_writeResult_same (s : State) (r : Reg) (v : Word) : (s.writeResult r v).reg r = v := by
  simp [State.writeResult]

theorem State.reg_writeResult_ne (s : State) {r q : Reg} (v : Word) (h : q ≠ r) :
    (s.writeResult r v).reg q = s.reg q := by
  simp [State.writeResult, s.reg_setReg_ne v h]

/-! ### `storeChar` -/

@[simp] theorem State.storeChar_pc (s : State) (c : Byte) : (s.storeChar c).pc = s.pc := rfl
@[simp] theorem State.storeChar_cond (s : State) (c : Byte) : (s.storeChar c).cond = condOf (zext8 c) := rfl
@[simp] theorem State.storeChar_mem (s : State) (c : Byte) : (s.storeChar c).mem = s.mem := rfl
@[simp] theorem State.storeChar_run (s : State) (c : Byte) : (s.storeChar c).run = s.run := rfl
@[simp] theorem State.storeChar_fault (s : State) (c : Byte) : (s.storeChar c).fault = s.fault := rfl
@[simp] theorem State.storeChar_input (s : State) (c : Byte) : (s.storeChar c).input = s.input := rfl
@[simp] theorem State.storeChar_output (s : State) (c : Byte) : (s.storeChar c).output = s.output := rfl
@[simp] theorem State.reg_storeChar_same (s : State) (c : Byte) : (s.storeChar c).reg 0 = zext8 c :=
  s.reg_writeResult_same 0 (zext8 c)

theorem State.reg_storeChar_ne (s : State) {q : Reg} (c : Byte) (h : q ≠ 0) : (s.storeChar c).reg q = s.reg q :=
  s.reg_writeResult_ne _ h

/-- The condition code is always one of the three legal values (R15, R16). -/
theorem condOf_oneHot (v : Word) : condOf v = condN ∨ condOf v = condZ ∨ condOf v = condP := by
  unfold condOf; split
  · exact .inl rfl
  · split
    · exact .inr (.inl rfl)
    · exact .inr (.inr rfl)

/-- `State.reset` is power-on with no image and zero registers, then start (R22). -/
theorem State.reset_eq_launch (pc0 : Word) (cond0 : BitVec 3) :
    State.reset = State.launch (Vector.replicate 8 0) pc0 cond0 { bytes := [], tail := .endless 0 } none [] := rfl

end Sys2Proof.Machine
end

