-- ==== Sys2Proof/Laws/Stream.lean ====
section
/-! SUPPORT. The streams: what `In` gives, `Out` one byte at a time, and what the two routine steps `inByte` and
`outBytes` can answer. -/

namespace Sys2Proof.Machine

@[simp] theorem InStream.next_cons (c : Byte) (r : List Byte) (t : InputTail) :
    InStream.next { bytes := c :: r, tail := t } = .byte c { bytes := r, tail := t } := rfl

@[simp] theorem InStream.next_fails : InStream.next { bytes := [], tail := .fails } = .failed := rfl

@[simp] theorem InStream.next_silent : InStream.next { bytes := [], tail := .silent } = .waiting := rfl

@[simp] theorem InStream.next_endless (k : Nat) : InStream.next { bytes := [], tail := .endless k } =
    .byte (Config.inputByte k) { bytes := [], tail := .endless (k + 1) } := rfl

@[simp] theorem OutStream.put_nil (o : OutStream) : o.put [] = .written o := by
  rcases o with ⟨bs, _ | n⟩ <;> simp [OutStream.put]

/-- Writing a list of bytes is writing its bytes in order, each with `Out`, up to the first failure (R119, R120). -/
theorem OutStream.put_cons (o : OutStream) (b : Byte) (bs : List Byte) : o.put (b :: bs) =
    match o.put [b] with
    | .written o => o.put bs
    | .failed o => .failed o := by
  rcases o with ⟨xs, _ | n⟩
  · simp [OutStream.put]
  · cases n with
    | zero => simp [OutStream.put]
    | succ n => by_cases h : bs.length ≤ n <;> simp [OutStream.put, h]

/-- An output that never fails takes every byte. -/
@[simp] theorem OutStream.put_endless (xs bs : List Byte) :
    OutStream.put { bytes := xs, room := none } bs = .written { bytes := xs ++ bs, room := none } := rfl

/-- An output with room enough takes every byte. -/
theorem OutStream.put_of_fits {o : OutStream} {bs : List Byte} (h : ∀ m, o.room = some m → bs.length ≤ m) :
    o.put bs = .written { bytes := o.bytes ++ bs, room := o.room.map (fun m => m - bs.length) } := by
  rcases o with ⟨xs, _ | m⟩
  · rfl
  · simp [OutStream.put, h m rfl]

/-- An output with less room takes the bytes before the first failing `Out`. -/
theorem OutStream.put_of_overflow {o : OutStream} {bs : List Byte} {m : Nat} (h : o.room = some m) (hm : m < bs.length) :
    o.put bs = .failed { bytes := o.bytes ++ bs.take m, room := some 0 } := by
  simp [OutStream.put, h, Nat.not_le.2 hm]

/-- What an `Out` leaves: the old bytes with some of the new ones behind them; all of them if it did not fail. -/
theorem OutStream.put_cases (o : OutStream) (bs : List Byte) :
    (∃ o', o.put bs = .written o' ∧ o'.bytes = o.bytes ++ bs) ∨
    (∃ o' n, o.put bs = .failed o' ∧ n < bs.length ∧ o.room = some n ∧ o'.bytes = o.bytes ++ bs.take n) := by
  rcases o with ⟨xs, _ | n⟩
  · exact .inl ⟨_, rfl, rfl⟩
  · by_cases h : bs.length ≤ n
    · exact .inl ⟨{ bytes := xs ++ bs, room := some (n - bs.length) }, by simp [OutStream.put, h], rfl⟩
    · exact .inr ⟨{ bytes := xs ++ bs.take n, room := some 0 }, n, by simp [OutStream.put, h], Nat.lt_of_not_le h, rfl, rfl⟩

/-- Everything a read inside a routine can answer (R119, R120, R170). -/
theorem State.inByte_cases (s : State) (i : Instr) (k : Byte → State → Result) :
    (∃ c rest, s.input.next = .byte c rest ∧ s.inByte i k = k c (s.setInput rest)) ∨
    (s.input.next = .failed ∧ s.inByte i k = .next (s.raise .ioFailure i)) ∨
    (s.input.next = .waiting ∧ s.inByte i k = .fault .inputWait) := by
  cases h : s.input.next with
  | byte c rest => exact .inl ⟨c, rest, rfl, by simp [State.inByte, h]⟩
  | failed => exact .inr (.inl ⟨rfl, by simp [State.inByte, h]⟩)
  | waiting => exact .inr (.inr ⟨rfl, by simp [State.inByte, h]⟩)

/-- Everything a write inside a routine can answer (R119, R120). -/
theorem State.outBytes_cases (s : State) (i : Instr) (bs : List Byte) (k : State → Result) :
    (∃ o, s.output.put bs = .written o ∧ s.outBytes i bs k = k (s.setOutput o)) ∨
    (∃ o, s.output.put bs = .failed o ∧
      s.outBytes i bs k = .next ((s.setOutput o).raise .ioFailure i)) := by
  cases h : s.output.put bs with
  | written o => exact .inl ⟨o, rfl, by simp [State.outBytes, h]⟩
  | failed o => exact .inr ⟨o, rfl, by simp [State.outBytes, h]⟩

end Sys2Proof.Machine
end

