-- ==== Sys2Proof/Laws/Routine.lean ====
section
/-! SUPPORT. The string routines' loops: everything they can answer, and the walk over cells that do not end the string
(44_trap.md R114, R116). -/

namespace Sys2Proof.Machine

@[simp] theorem State.setOutput_setOutput (s : State) (o p : OutStream) :
    (s.setOutput o).setOutput p = s.setOutput p := rfl

@[simp] theorem State.setOutput_self (s : State) : s.setOutput s.output = s := rfl

/-- A write inside a routine either goes on with more bytes out, or ends the instruction with IOFailure, the bytes
before the failing one out. -/
theorem State.outBytes_prefix (s : State) (i : Instr) (bs : List Byte) (k : State → Result) :
    ∃ o : OutStream, s.output.bytes <+: o.bytes ∧
      (s.outBytes i bs k = k (s.setOutput o) ∨ s.outBytes i bs k = .next ((s.setOutput o).raise .ioFailure i)) := by
  unfold State.outBytes
  rcases s.output.put_cases bs with ⟨o, h, hb⟩ | ⟨o, n, h, -, -, hb⟩
  · exact ⟨o, ⟨bs, hb.symm⟩, .inl (by rw [h])⟩
  · exact ⟨o, ⟨bs.take n, hb.symm⟩, .inr (by rw [h])⟩

/-- Everything a string loop can answer: only the output changes, bytes being added, and it completes, or ends with
IOFailure, or never ends. -/
def LoopAnswer (i : Instr) (s : State) (r : Result) : Prop :=
  (∃ o : OutStream, s.output.bytes <+: o.bytes ∧
    (r = .next (s.setOutput o) ∨ r = .next ((s.setOutput o).raise .ioFailure i))) ∨
  r = .fault .stringNeverEnds

theorem LoopAnswer.done (i : Instr) (s : State) : LoopAnswer i s (.next s) :=
  .inl ⟨s.output, List.prefix_refl _, .inl rfl⟩

theorem LoopAnswer.afterOut {i : Instr} {s : State} {bs : List Byte} {k : State → Result}
    (h : ∀ o, LoopAnswer i (s.setOutput o) (k (s.setOutput o))) : LoopAnswer i s (s.outBytes i bs k) := by
  obtain ⟨o, hp, e | e⟩ := s.outBytes_prefix i bs k
  · rw [e]
    rcases h o with ⟨p, hq, hr⟩ | hr
    · exact .inl ⟨p, hp.trans hq, hr⟩
    · exact .inr hr
  · exact .inl ⟨o, hp, .inr e⟩

theorem putsLoop_answer (i : Instr) (fuel : Nat) : ∀ (a : Word) (s : State), LoopAnswer i s (putsLoop i fuel a s) := by
  induction fuel with
  | zero => exact fun _ _ => .inr rfl
  | succ fuel ih =>
    intro a s
    unfold putsLoop
    split
    · exact .done i s
    · exact .afterOut (fun o => ih (a + 1) (s.setOutput o))

theorem putspLoop_answer (i : Instr) (fuel : Nat) : ∀ (a : Word) (s : State), LoopAnswer i s (putspLoop i fuel a s) := by
  induction fuel with
  | zero => exact fun _ _ => .inr rfl
  | succ fuel ih =>
    intro a s
    unfold putspLoop
    split
    · exact .done i s
    · refine .afterOut (fun o => ?_)
      split
      · exact .done i _
      · exact .afterOut (fun p => ih (a + 1) (s.setOutput p))

theorem walk_next (a : Word) (j : Nat) : a + 1 + BitVec.ofNat 16 j = a + BitVec.ofNat 16 (j + 1) := by
  rw [BitVec.add_assoc]
  congr 1
  apply BitVec.eq_of_toNat_eq
  simp
  omega

/-- PUTS' walk over `n` non-zero cells that the output has room for. -/
theorem putsLoop_walk (i : Instr) (n : Nat) : ∀ (a : Word) (s : State) (fuel : Nat),
    (∀ j < n, s.mem.read (a + BitVec.ofNat 16 j) ≠ 0) → (∀ m, s.output.room = some m → n ≤ m) →
    putsLoop i (n + fuel) a s = putsLoop i fuel (a + BitVec.ofNat 16 n) (s.setOutput
      { bytes := s.output.bytes ++ (List.range n).map (fun j => lowByte (s.mem.read (a + BitVec.ofNat 16 j))),
        room := s.output.room.map (fun m => m - n) }) := by
  induction n with
  | zero => intro a s fuel _ _; simp; rfl
  | succ n ih =>
    intro a s fuel h hr
    have h0 : s.mem.read a ≠ 0 := by simpa using h 0 (by omega)
    rw [show n + 1 + fuel = (n + fuel) + 1 by omega]
    conv_lhs => unfold putsLoop
    rw [if_neg h0]
    unfold State.outBytes
    rw [OutStream.put_of_fits (fun m hm => by have := hr m hm; simp; omega)]
    dsimp only
    rw [ih (a + 1) _ fuel (fun j hj => by rw [walk_next]; exact h (j + 1) (by omega)) (fun m hm => ?_), walk_next]
    · congr 1
      simp only [State.setOutput_setOutput, State.setOutput_mem, State.setOutput_output, walk_next]
      congr 2
      · rw [List.range_succ_eq_map]; simp [Function.comp_def]
      · cases s.output.room <;> simp; omega
    · simp only [State.setOutput_output, Option.map_eq_some_iff] at hm
      obtain ⟨q, hq, rfl⟩ := hm
      have := hr q hq
      simp; omega

/-- PUTSP's walk over `n` cells with no zero byte that the output has room for. -/
theorem putspLoop_walk (i : Instr) (n : Nat) : ∀ (a : Word) (s : State) (fuel : Nat),
    (∀ j < n, lowByte (s.mem.read (a + BitVec.ofNat 16 j)) ≠ 0 ∧ highByte (s.mem.read (a + BitVec.ofNat 16 j)) ≠ 0) →
    (∀ m, s.output.room = some m → 2 * n ≤ m) →
    putspLoop i (n + fuel) a s = putspLoop i fuel (a + BitVec.ofNat 16 n) (s.setOutput
      { bytes := s.output.bytes ++ (List.range n).flatMap (fun j =>
          [lowByte (s.mem.read (a + BitVec.ofNat 16 j)), highByte (s.mem.read (a + BitVec.ofNat 16 j))]),
        room := s.output.room.map (fun m => m - 2 * n) }) := by
  induction n with
  | zero => intro a s fuel _ _; simp; rfl
  | succ n ih =>
    intro a s fuel h hr
    have h0 : lowByte (s.mem.read a) ≠ 0 ∧ highByte (s.mem.read a) ≠ 0 := by simpa using h 0 (by omega)
    rw [show n + 1 + fuel = (n + fuel) + 1 by omega]
    conv_lhs => unfold putspLoop
    rw [if_neg h0.1]
    unfold State.outBytes
    rw [OutStream.put_of_fits (fun m hm => by have := hr m hm; simp; omega)]
    dsimp only
    rw [State.setOutput_mem, if_neg h0.2, OutStream.put_of_fits (fun m hm => ?_)]
    · dsimp only
      rw [ih (a + 1) _ fuel (fun j hj => by rw [walk_next]; exact h (j + 1) (by omega)) (fun m hm => ?_), walk_next]
      · congr 1
        simp only [State.setOutput_setOutput, State.setOutput_mem, State.setOutput_output, walk_next]
        congr 2
        · rw [List.range_succ_eq_map]; simp [List.flatMap_map]
        · cases s.output.room <;> simp; omega
      · simp only [State.setOutput_output, Option.map_eq_some_iff] at hm
        obtain ⟨q, ⟨p, hp, rfl⟩, rfl⟩ := hm
        have := hr p hp
        simp; omega
    · simp only [State.setOutput_output, Option.map_eq_some_iff] at hm
      obtain ⟨q, hq, rfl⟩ := hm
      have := hr q hq
      simp; omega

end Sys2Proof.Machine
end

