-- ==== Sys2Proof/Tests/Slice0.lean ====
section
/-! SUPPORT. Small tests. Every expected result is from the spec: the words from the encodings of 30_encoding.md R51 and
R54, the steps from the vectors of 95_test_vectors.md (S1, S2, S7, sections 2.1 to 2.5). At the end, the witnesses:
a concrete state and operands that meet each statement's hypotheses. -/

namespace Sys2Proof.Tests

open Sys2Proof.Machine Sys2Proof.Spec

/-! ### Well-formedness: the one check refuses each defined vector under the catch-all row -/

theorem test_wf_refuses_getc_vector : Instr.wf (.trap 0 0x20) = false := by decide
theorem test_wf_refuses_out_vector : Instr.wf (.trap 0 0x21) = false := by decide
theorem test_wf_refuses_puts_vector : Instr.wf (.trap 0 0x22) = false := by decide
theorem test_wf_refuses_in_vector : Instr.wf (.trap 0 0x23) = false := by decide
theorem test_wf_refuses_putsp_vector : Instr.wf (.trap 0 0x24) = false := by decide
theorem test_wf_refuses_halt_vector : Instr.wf (.trap 0 0x25) = false := by decide
theorem test_wf_takes_undefined_vectors : Instr.wf (.trap 0 0x1F) = true ∧ Instr.wf (.trap 0 0x26) = true := by decide

/-! ### Decoding: one word per constructor, written out from its format -/

theorem test_decode_br : decode 0b0000_1_0_1_111111101 = .br true false true 0b111111101 := by decide
theorem test_decode_addReg : decode 0b0001_010_011_0_11_100 = .addReg 2 3 0b11 4 := by decide
theorem test_decode_addImm : decode 0b0001_000_001_1_00101 = .addImm 0 1 5 := by decide
theorem test_decode_ld : decode 0b0010_010_000000100 = .ld 2 4 := by decide
theorem test_decode_st : decode 0b0011_011_111111110 = .st 3 0b111111110 := by decide
theorem test_decode_jsr : decode 0b0100_1_10000000101 = .jsr 0b10000000101 := by decide
theorem test_decode_jsrr : decode 0b0100_0_11_011_111110 = .jsrr 0b11 3 0b111110 := by decide
theorem test_decode_andReg : decode 0b0101_010_011_0_01_100 = .andReg 2 3 0b01 4 := by decide
theorem test_decode_andImm : decode 0b0101_101_110_1_01111 = .andImm 5 6 15 := by decide
theorem test_decode_ldr : decode 0b0110_001_110_111111 = .ldr 1 6 0b111111 := by decide
theorem test_decode_str : decode 0b0111_001_110_011111 = .str 1 6 31 := by decide
theorem test_decode_rti : decode 0b1000_101010111100 = .rti 0xABC := by decide
theorem test_decode_not : decode 0b1001_100_010_111111 = .not 4 2 0b111111 := by decide
theorem test_decode_ldi : decode 0b1010_101_000001000 = .ldi 5 8 := by decide
theorem test_decode_sti : decode 0b1011_101_000000111 = .sti 5 7 := by decide
theorem test_decode_jmp : decode 0b1100_100_111_000001 = .jmp 0b100 7 1 := by decide
theorem test_decode_res : decode 0b1101_111111111110 = .res 0xFFE := by decide
theorem test_decode_lea : decode 0b1110_001_000001010 = .lea 1 10 := by decide
theorem test_decode_getc : decode 0b1111_0001_00100000 = .getc 1 := by decide
theorem test_decode_out : decode 0b1111_0000_00100001 = .out 0 := by decide
theorem test_decode_puts : decode 0b1111_0000_00100010 = .puts 0 := by decide
theorem test_decode_in : decode 0b1111_0000_00100011 = .inChar 0 := by decide
theorem test_decode_putsp : decode 0b1111_0000_00100100 = .putsp 0 := by decide
theorem test_decode_halt : decode 0b1111_1111_00100101 = .halt 0xF := by decide
theorem test_decode_trap : decode 0b1111_1000_00100110 = .trap 8 0x26 := by decide
theorem test_decodeTableWord : decodeTableWord 16 0x1065 = some (.addImm 0 1 5) ∧ decodeTableWord 16 0x10000 = none := by
  decide

/-! ### Steps -/

/-- The start of a vector: the word at `a`, the pc there, every register 0xAAAA, COND = Z, no input, output open. -/
def vec (a w : Word) : State where
  regs := Vector.replicate 8 0xAAAA
  pc := a
  cond := condZ
  mem := Memory.write [] a w
  run := .running
  fault := none
  input := { bytes := [], tail := .fails }
  output := { bytes := [], room := none }

/-- A vector's input stream, which fails at its end. -/
def withIn (s : State) (bs : List Byte) : State := s.setInput { bytes := bs, tail := .fails }

/-- The outcome is a next state that `f` holds of. -/
def after (r : Result) (f : State → Bool) : Bool :=
  match r with
  | .next t => f t
  | _ => false

theorem test_add_reg_plain : after (step (((vec 0x3000 0x14C4).setReg 3 0x1234).setReg 4 0x0FF0))
    (fun t => t.reg 2 == 0x2224 && t.cond == condP && t.pc == 0x3001) = true := by decide
theorem test_add_reg_doubles_and_wraps : after (step ((vec 0x3000 0x1241).setReg 1 0x8000))
    (fun t => t.reg 1 == 0x0000 && t.cond == condZ) = true := by decide
theorem test_add_imm_worked_word : after (step ((vec 0x3000 0x1065).setReg 1 0xFFFF))
    (fun t => t.reg 0 == 0x0004 && t.cond == condP) = true := by decide
theorem test_add_imm_least : after (step ((vec 0x3000 0x16F0).setReg 3 0x0010))
    (fun t => t.reg 3 == 0x0000 && t.cond == condZ) = true := by decide
theorem test_and_reg_plain : after (step (((vec 0x3000 0x54C4).setReg 3 0x1234).setReg 4 0x0FF0))
    (fun t => t.reg 2 == 0x0230 && t.cond == condP) = true := by decide
theorem test_and_imm_sign_extends : after (step ((vec 0x3000 0x5BB0).setReg 6 0xABCD))
    (fun t => t.reg 5 == 0xABC0 && t.cond == condN) = true := by decide
theorem test_and_imm_positive : after (step ((vec 0x3000 0x5BAF).setReg 6 0xABCD))
    (fun t => t.reg 5 == 0x000D && t.cond == condP) = true := by decide
theorem test_not_plain : after (step ((vec 0x3000 0x98BF).setReg 2 0x0007))
    (fun t => t.reg 4 == 0xFFF8 && t.cond == condN) = true := by decide
theorem test_not_ignored_bits_clear : after (step ((vec 0x3000 0x9000).setReg 0 0x00FF))
    (fun t => t.reg 0 == 0xFF00 && t.cond == condN) = true := by decide

theorem test_ld_plain : after (step ((vec 0x3000 0x2404).store 0x3005 0x8001))
    (fun t => t.reg 2 == 0x8001 && t.cond == condN) = true := by decide
theorem test_ld_wraps : after (step ((vec 0xFFFF 0x2001).store 0x0001 0x0042))
    (fun t => t.reg 0 == 0x0042 && t.pc == 0x0000) = true := by decide
theorem test_st_low_memory : after (step ((vec 0x3000 0x37FE).setReg 3 0xBEEF))
    (fun t => t.mem.read 0x2FFF == 0xBEEF && t.cond == condZ && t.pc == 0x3001) = true := by decide
theorem test_st_wraps : after (step ((vec 0xFF80 0x3EFF).setReg 7 0x1234))
    (fun t => t.mem.read 0x0080 == 0x1234) = true := by decide
theorem test_ldr_base_is_destination : after (step (((vec 0x3000 0x6240).setReg 1 0x5000).store 0x5000 0x6000))
    (fun t => t.reg 1 == 0x6000 && t.cond == condP) = true := by decide
theorem test_ldr_least_offset_wraps : after (step (((vec 0x3000 0x64E0).setReg 3 0x0010).store 0xFFF0 0x0001))
    (fun t => t.reg 2 == 0x0001) = true := by decide
theorem test_str_plain : after (step (((vec 0x3000 0x739F).setReg 6 0x4000).setReg 1 0x00FF))
    (fun t => t.mem.read 0x401F == 0x00FF) = true := by decide
theorem test_str_wraps : after (step (((vec 0x3000 0x7160).setReg 5 0x0000).setReg 0 0x0001))
    (fun t => t.mem.read 0xFFE0 == 0x0001) = true := by decide
theorem test_ldi_round_trip : after (step (((vec 0x3005 0xAA08).store 0x300E 0x300B).store 0x300B 0x1234))
    (fun t => t.reg 5 == 0x1234 && t.cond == condP) = true := by decide
theorem test_sti_plain : after (step (((vec 0x3007 0xBA07).store 0x300F 0x3011).setReg 5 0xEDCB))
    (fun t => t.mem.read 0x3011 == 0xEDCB && t.mem.read 0x300F == 0x3011) = true := by decide
theorem test_sti_overwrites_its_pointer : after (step (((vec 0x3000 0xB200).store 0x3001 0x3001).setReg 1 0x0009))
    (fun t => t.mem.read 0x3001 == 0x0009) = true := by decide
theorem test_lea_sets_cond : after (step (vec 0x7F00 0xE6FF))
    (fun t => t.reg 3 == 0x8000 && t.cond == condN) = true := by decide
theorem test_lea_zero : after (step (vec 0xFFFF 0xE000))
    (fun t => t.reg 0 == 0x0000 && t.cond == condZ && t.pc == 0x0000) = true := by decide

theorem test_br_taken_backward : after (step ((vec 0x3005 0x03FD).setCond condP))
    (fun t => t.pc == 0x3003 && t.cond == condP) = true := by decide
theorem test_br_not_taken : after (step ((vec 0x3005 0x03FD).setCond condN)) (fun t => t.pc == 0x3006) = true := by
  decide
theorem test_jmp_ret : after (step (((vec 0x300B 0xC1C0).setReg 7 0x3003).setCond condN))
    (fun t => t.pc == 0x3003 && t.reg 7 == 0x3003 && t.cond == condN) = true := by decide
theorem test_jsr_least_reach : after (step (vec 0x3000 0x4C00))
    (fun t => t.pc == 0x2C01 && t.reg 7 == 0x3001) = true := by decide
theorem test_jsrr_plain : after (step ((vec 0x3004 0x40C0).setReg 3 0x3008))
    (fun t => t.pc == 0x3008 && t.reg 7 == 0x3005) = true := by decide
theorem test_jsrr_r7_falls_through : after (step ((vec 0x3000 0x41C0).setReg 7 0x5000))
    (fun t => t.pc == 0x3001 && t.reg 7 == 0x3001) = true := by decide

theorem test_getc_high_byte : after (step (withIn ((vec 0x3000 0xF020).setCond condN) [0xE9]))
    (fun t => t.reg 0 == 0x00E9 && t.reg 7 == 0x3001 && t.cond == condP && t.input.bytes == []) = true := by decide
theorem test_getc_failure : after (step ((vec 0x3000 0xF020).setCond condN))
    (fun t => t.reg 0 == 0xAAAA && t.reg 7 == 0x3001 && t.cond == condN && t.run == .faulted
      && t.fault == some { kind := .ioFailure, addr := 0x3000, instr := 0xF020 }) = true := by decide
theorem test_out_low_byte : after (step ((vec 0x3000 0xF021).setReg 0 0x410A))
    (fun t => t.output.bytes == [0x0A] && t.reg 0 == 0x410A && t.run == .running) = true := by decide
theorem test_out_failure : after (step ((vec 0x3000 0xF021).setOutput { bytes := [1], room := some 0 }))
    (fun t => t.output.bytes == [1] && t.fault == some { kind := .ioFailure, addr := 0x3000, instr := 0xF021 })
      = true := by decide
theorem test_puts_drops_high_bytes : after (step (((((vec 0x3000 0xF022).setReg 0 0x4000).store 0x4000 0x0141).store
    0x4001 0x4100).store 0x4002 0x0042)) (fun t => t.output.bytes == [0x41, 0x00, 0x42] && t.reg 0 == 0x4000
      && t.reg 7 == 0x3001) = true := by decide
theorem test_puts_wraps : after (step ((((vec 0x3000 0xF022).setReg 0 0xFFFF).store 0xFFFF 0x0041).store 0x0000 0x0042))
    (fun t => t.output.bytes == [0x41, 0x42]) = true := by decide
theorem test_in_failure_after_prompt : (match step (vec 0x3000 0xF023) with
    | .next t => t.output.bytes = Config.inPrompt ∧ t.reg 0 = 0xAAAA ∧ t.run = .faulted
    | _ => False) := ⟨rfl, rfl, rfl⟩
theorem test_in_prompt_then_echo : (match step (withIn (vec 0x3000 0xF023) [0x79]) with
    | .next t => t.output.bytes = Config.inPrompt ++ [0x79] ∧ t.reg 0 = 0x0079 ∧ t.cond = condP ∧ t.run = .running
    | _ => False) := ⟨rfl, rfl, rfl, rfl⟩
theorem test_putsp_odd_length : after (step ((((vec 0x3000 0xF024).setReg 0 0x300A).store 0x300A 0x6F4C).store
    0x300B 0x0021)) (fun t => t.output.bytes == [0x4C, 0x6F, 0x21] && t.reg 0 == 0x300A) = true := by decide
theorem test_putsp_stops_at_zero_high_byte : after (step ((((vec 0x3000 0xF024).setReg 0 0x4000).store 0x4000
    0x0041).store 0x4001 0x0042)) (fun t => t.output.bytes == [0x41]) = true := by decide
theorem test_halt : (match step (vec 0x3000 0xF025) with
    | .next t => t.run = .halted ∧ t.reg 7 = 0x3001 ∧ t.pc = 0x3001 ∧ t.output.bytes = Config.haltNotice
    | _ => False) := ⟨rfl, rfl, rfl, rfl⟩
theorem test_halt_ignored_bits : after (step (vec 0x4000 0xFF25)) (fun t => t.run == .halted && t.reg 7 == 0x4001)
    = true := by decide
theorem test_trap_undefined : after (step (vec 0x3000 0xF026))
    (fun t => t.run == .faulted && t.reg 7 == 0x3001 && t.pc == 0x3001
      && t.fault == some { kind := .illegalInstruction, addr := 0x3000, instr := 0xF026 }) = true := by decide
theorem test_rti : after (step (vec 0x1234 0x8ABC))
    (fun t => t.run == .faulted && t.pc == 0x1235 && t.reg 7 == 0xAAAA
      && t.fault == some { kind := .illegalInstruction, addr := 0x1234, instr := 0x8ABC }) = true := by decide
theorem test_res_last_address : after (step (vec 0xFFFF 0xDFFF))
    (fun t => t.pc == 0x0000 && t.fault == some { kind := .illegalInstruction, addr := 0xFFFF, instr := 0xDFFF })
      = true := by decide

/-! ### Boot (S7) and the interface -/

theorem test_load_overlays : (([⟨0x3000, [0x1111, 0x2222, 0x3333]⟩, ⟨0x3001, [0xAAAA]⟩] : List Image).foldl
    State.loadImage (vec 0 0)).mem = [(0x3000, 0x1111), (0x3001, 0xAAAA), (0x3002, 0x3333)] := by decide
theorem test_load_drops_past_the_top : ((vec 0 0).loadImage ⟨0xFFFE, [1, 2, 3, 4]⟩).mem = [(0xFFFE, 1), (0xFFFF, 2)] := by
  decide
theorem test_image_file : imageOfBytes [0x30, 0x00, 0xF0, 0x25] = some ⟨0x3000, [0xF025]⟩ := by decide
theorem test_reset_runs_a_placed_word : after (step (State.reset.withFetchWord 16 0xE000))
    (fun t => t.reg 0 == 0x3001 && t.pc == 0x3001) = true := by decide

/-! ### Witnesses: states and operands that meet the hypotheses of the statements -/

/-- The register index and the offset of the witness for a store seen by the next fetch. -/
theorem witness_StoreIsSeenByTheNextFetch : (vec 0x3000 0x3000).run = .running ∧
    decode ((vec 0x3000 0x3000).mem.read (vec 0x3000 0x3000).pc) = .st 0 0 := by decide

/-- R81's words: opcode 0001 with bit 5 set. -/
theorem witness_AddImmediateForm : (0x1065 : Word).extractLsb' 12 4 = 0b0001#4 ∧ (0x1065 : Word).getLsbD 5 = true := by
  decide

theorem witness_ConditionCodeOfWrittenValue : 0x8000 ≤ (0x8000 : Word).toNat ∧ (0 : Word).toNat = 0 ∧
    0 < (0x0001 : Word).toNat ∧ (0x7FFF : Word).toNat < 0x8000 ∧ condOf 0x8000 = condN ∧ condOf 0xFFFF = condN ∧
    condOf 0 = condZ ∧ condOf 1 = condP ∧ condOf 0x7FFF = condP := by decide

theorem witness_BranchAlwaysAndNever : (vec 0x3000 0).condOneHot := .inr (.inl rfl)

theorem witness_GetcStoresTheByte : (withIn (vec 0x3001 0) [0xE9]).input.next = .byte 0xE9 ⟨[], .fails⟩ := rfl

/-- A byte at hand and an output that never fails. -/
theorem witness_InPromptsReadsAndEchoes : (withIn (vec 0x3001 0) [0x79]).input.next = .byte 0x79 ⟨[], .fails⟩ ∧
    accepts (withIn (vec 0x3001 0) [0x79]).output (Config.inPrompt.length + 1) := ⟨rfl, fun _ h => nomatch h⟩

/-- The boundary case: an output with just the room the prompt and the echo take. -/
theorem witness_InPromptsReadsAndEchoes_exact_room :
    accepts ((withIn (vec 0x3001 0) [0x79]).setOutput ⟨[], some (Config.inPrompt.length + 1)⟩).output
      (Config.inPrompt.length + 1) := fun _ h => Option.some.inj h ▸ Nat.le_refl _

theorem witness_InEchoFailure :
    ((withIn (vec 0x3001 0) [0x79]).setOutput ⟨[], some Config.inPrompt.length⟩).input.next = .byte 0x79 ⟨[], .fails⟩ ∧
    ((withIn (vec 0x3001 0) [0x79]).setOutput ⟨[], some Config.inPrompt.length⟩).output.room
      = some Config.inPrompt.length := ⟨rfl, rfl⟩

theorem witness_InputFailureFaults : (vec 0x3001 0).input.next = .failed ∧
    accepts (vec 0x3001 0).output Config.inPrompt.length := ⟨rfl, fun _ h => nomatch h⟩

theorem witness_SilentInputNeverCompletes : ((vec 0x3001 0).setInput ⟨[], .silent⟩).input.next = .waiting ∧
    accepts ((vec 0x3001 0).setInput ⟨[], .silent⟩).output Config.inPrompt.length := ⟨rfl, fun _ h => nomatch h⟩

theorem witness_OutWritesTheLowByte : (vec 0x3001 0).output.room ≠ some 0 ∧
    ((vec 0x3001 0).setOutput ⟨[], some 0⟩).output.room = some 0 := by decide

/-- A string of two cells, ended by a zero cell. -/
def twoCells : State := (((vec 0x3001 0).setReg 0 0x4000).store 0x4000 0x4241).store 0x4001 0x4443

theorem witness_PutsWritesTheString : (∀ j < 2, twoCells.mem.read (twoCells.reg 0 + BitVec.ofNat 16 j) ≠ 0) ∧
    twoCells.mem.read (twoCells.reg 0 + BitVec.ofNat 16 2) = 0 ∧ accepts twoCells.output 2 :=
  ⟨by decide, by decide, fun _ h => nomatch h⟩

theorem witness_PutspWritesThePackedString : (∀ j < 4, putspByte twoCells j ≠ 0) ∧ putspByte twoCells 4 = 0 ∧
    accepts twoCells.output 4 := ⟨by decide, by decide, fun _ h => nomatch h⟩

/-- The same string with room for one byte. -/
theorem witness_StringOutputFailure : (twoCells.setOutput ⟨[], some 1⟩).output.room = some 1 ∧
    (∀ j ≤ 1, (twoCells.setOutput ⟨[], some 1⟩).mem.read
      ((twoCells.setOutput ⟨[], some 1⟩).reg 0 + BitVec.ofNat 16 j) ≠ 0) ∧
    (∀ j ≤ 1, putspByte (twoCells.setOutput ⟨[], some 1⟩) j ≠ 0) := by decide

theorem witness_OutputFailureEndsTheRoutine : ((vec 0x3001 0).setOutput ⟨[], some 1⟩).output.room = some 1 ∧
    1 < ([0x41, 0x42] : List Byte).length := by decide

theorem witness_StepRunsTheDecodedInstruction : (vec 0x3000 0).run = .running := rfl

/-- The words at both ends of each illegal range, and their neighbours outside it (R56). -/
theorem witness_IllegalWordsExactly : (vec 0x3000 0x8000).run = .running ∧
    ([0x8000, 0x8FFF, 0xD000, 0xDFFF, 0xF000, 0xF01F, 0xF026, 0xFF1F, 0xFFFF] : List Word).all
      (fun w => isIllegal (decode w)) = true ∧
    ([0x7FFF, 0x9000, 0xCFFF, 0xE000, 0xEFFF, 0xF020, 0xF025, 0xFF20, 0xFF25] : List Word).all
      (fun w => !isIllegal (decode w)) = true := by decide

theorem witness_StoppedMachineTakesNoStep : (vec 0x3000 0).halt.run ≠ .running := by decide

/-- A step of an instruction that does not transfer control. -/
theorem witness_PcIsIncrementedAtFetch : (∃ t, step (vec 0x3000 0x1241) = .next t) ∧
    transfers (decode ((vec 0x3000 0x1241).mem.read (vec 0x3000 0x1241).pc)) = false := ⟨⟨_, rfl⟩, by decide⟩

/-- An instruction that sets COND, one that does not, and a GETC that fails: each with its next state. -/
theorem witness_CondWrittenOnlyByItsSetters : (∃ t, exec (.not 4 2 0x3F) (vec 0x3001 0) = .next t) ∧
    (∃ t, exec (.st 4 2) (vec 0x3001 0) = .next t) ∧
    (∃ t, exec (.getc 0) (vec 0x3001 0) = .next t ∧ t.run = .faulted) := ⟨⟨_, rfl⟩, ⟨_, rfl⟩, _, rfl, rfl⟩

theorem witness_RegistersWrittenAreThoseListed : ∃ t, exec (.ldr 1 6 0x3F) (vec 0x3001 0) = .next t := ⟨_, rfl⟩

theorem witness_MemoryWrittenOnlyByStores : ∃ t, exec (.not 4 2 0x3F) (vec 0x3001 0) = .next t ∧
    storesToMem (.not 4 2 0x3F) = false := ⟨_, rfl, rfl⟩

theorem witness_StreamsTouchedOnlyByTraps : (∃ t, exec (.jsr 5) (vec 0x3001 0) = .next t) ∧
    writesOutput (.jsr 5) = false := ⟨⟨_, rfl⟩, rfl⟩

theorem witness_LinkRegisterIsClobbered : ∃ t, exec (.jsr 5) (vec 0x3001 0) = .next t ∧ links (.jsr 5) = true :=
  ⟨_, rfl, rfl⟩

theorem witness_RegistersNotListedDoNotMatter : (5 : Reg) ∉ readsRegs (.addReg 0 1 0 2) ∧
    (5 : Reg) ∉ writesRegs (.addReg 0 1 0 2) := by decide

theorem witness_CondReadOnlyByBranch : ∀ n z p off, (Instr.jsr 5) ≠ .br n z p off := by
  intro n z p off h; cases h

/-- A running machine that halts, and one that faults: both parts of the statement are met. -/
theorem witness_HowAMachineStops : (∃ t, exec (.halt 0) (vec 0x3001 0) = .next t ∧ t.run = .halted) ∧
    (∃ t, exec (.rti 0) (vec 0x3001 0) = .next t ∧ t.run = .faulted ∧ isIllegal (.rti 0) = true) :=
  ⟨⟨_, rfl, rfl⟩, ⟨_, rfl, rfl, rfl⟩⟩

theorem witness_RunningMachineCompletesTheCycle : (withIn (vec 0x3000 0xF020) [1]).run = .running ∧
    (withIn (vec 0x3000 0xF020) [1]).input.next ≠ .waiting ∧
    ∃ a : Word, (withIn (vec 0x3000 0xF020) [1]).mem.read a = 0 := ⟨rfl, by decide, 0, by decide⟩

/-- A running machine that waits for input. -/
theorem witness_OnlyWaitsAndEndlessStringsDoNotComplete :
    step ((vec 0x3000 0xF020).setInput ⟨[], .silent⟩) = .fault .inputWait := rfl

theorem witness_StepKeepsInvariant : (vec 0x3000 0x1241).Inv ∧ ∃ t, step (vec 0x3000 0x1241) = .next t :=
  ⟨⟨by decide, .inr (.inl rfl), by simp [State.faultAgrees, vec]⟩, _, rfl⟩

theorem witness_DecodeOfEncode : Instr.wf (.trap 3 0xFF) = true := by decide

theorem witness_IgnoredBitsDoNotMatter : canonical (.jmp 0 7 0) = canonical (.jmp 7 7 0x3F) := by decide

theorem witness_EveryWordMatchesItsRow : (0x1065 : Word) &&& rowMask (.addImm 0 0 0) = rowMatch (.addImm 0 0 0) := by
  decide

/-- A placed program, for the statement about the state at the first fetch. -/
theorem witness_StateAtFirstFetch : State.launch (Vector.replicate 8 0xAAAA) 0xBEEF 0 ⟨[], .fails⟩ none
    [⟨0x3000, [0xF025]⟩] = { vec 0x3000 0xF025 with output := ⟨[], none⟩ } := by decide

theorem witness_CanonicalMemoriesReadAlikeAreEqual : Memory.wf [(0x3000, 1), (0xFFFF, 2)] = true := by decide

/-- Zeroed memory, and a machine running through it. -/
theorem witness_ZeroedMemoryIsRunThrough : State.reset.run = .running ∧ ∀ a : Word, State.reset.mem.read a = 0 :=
  ⟨rfl, fun _ => rfl⟩

theorem witness_BranchToItselfNeverEnds : (vec 0x3000 0x0FFF).run = .running ∧ (vec 0x3000 0x0FFF).condOneHot ∧
    (vec 0x3000 0x0FFF).mem.read (vec 0x3000 0x0FFF).pc = 0x0FFF := ⟨rfl, .inr (.inl rfl), by decide⟩

/-- A machine at a HALT: one step of it is a run that is over. -/
theorem witness_RunEndsHaltedOrWithARecord : (vec 0x3000 0xF025).Inv ∧
    ∃ t, Sys2Proof.core.run 1 (vec 0x3000 0xF025) = .next t ∧ State.over t :=
  ⟨⟨by decide, .inr (.inl rfl), by simp [State.faultAgrees, vec]⟩, _, rfl, .inl rfl⟩

end Sys2Proof.Tests
end

section
/-! What holds of every next state of a result: one rule per step a trap routine is made of, for claims about any
instruction that need no more of its outcome than that. -/

namespace Sys2Proof.Machine

/-- Every next state the result answers meets `P`. -/
def AllNext (P : State → Prop) (r : Result) : Prop := ∀ t, r = .next t → P t

theorem AllNext.of_next {P : State → Prop} {t : State} (h : P t) : AllNext P (.next t) := by
  rintro _ ⟨⟩
  exact h

theorem AllNext.of_fault {P : State → Prop} {f : Fault} : AllNext P (.fault f) := by
  rintro _ ⟨⟩

/-- A read inside a routine: its continuation answers, or it fails, or it waits (44_trap.md R119, R120, R170). -/
theorem AllNext.inByte {P : State → Prop} {s : State} {i : Instr} {k : Byte → State → Result}
    (hk : ∀ c rest, AllNext P (k c (s.setInput rest))) (hfail : P (s.raise .ioFailure i)) :
    AllNext P (s.inByte i k) := by
  obtain ⟨c, rest, -, e⟩ | ⟨-, e⟩ | ⟨-, e⟩ := s.inByte_cases i k <;> rw [e]
  · exact hk c rest
  · exact .of_next hfail
  · exact .of_fault

/-- A write inside a routine: its continuation answers, or it fails (R119, R120). -/
theorem AllNext.outBytes {P : State → Prop} {s : State} {i : Instr} {bs : List Byte} {k : State → Result}
    (hk : ∀ o, AllNext P (k (s.setOutput o))) (hfail : ∀ o, P ((s.setOutput o).raise .ioFailure i)) :
    AllNext P (s.outBytes i bs k) := by
  obtain ⟨o, -, e⟩ | ⟨o, -, e⟩ := s.outBytes_cases i bs k <;> rw [e]
  · exact hk o
  · exact .of_next (hfail o)

/-- A string loop: it completes with another output, or its output fails, or it never ends (R114, R116, R169). -/
theorem LoopAnswer.allNext {P : State → Prop} {i : Instr} {s : State} {r : Result} (h : LoopAnswer i s r)
    (hdone : ∀ o, P (s.setOutput o)) (hfail : ∀ o, P ((s.setOutput o).raise .ioFailure i)) : AllNext P r := by
  obtain ⟨o, -, rfl | rfl⟩ | rfl := h
  · exact .of_next (hdone o)
  · exact .of_next (hfail o)
  · exact .of_fault

end Sys2Proof.Machine
end

section
/-! The cycle: when a step answers, and where it leaves the pc (10_state.md R13; 40_cycle.md R70, R71). -/

namespace Sys2Proof.Machine

open Sys2Proof.Spec

theorem step_of_running {s : State} (h : s.run = .running) : step s = exec (decode s.fetchWord) s.advance := by
  simp [step, h]

/-- Only a running machine has a next state. -/
theorem step_eq_next_iff {s t : State} :
    step s = .next t ↔ s.run = .running ∧ exec (decode s.fetchWord) s.advance = .next t := by
  cases h : s.run <;> simp [step, h]

theorem State.toNat_advance_pc (s : State) : s.advance.pc.toNat = (s.pc.toNat + 1) % 65536 := by
  simp [BitVec.toNat_add]

/-- An instruction that does not transfer control leaves the pc at the incremented value, whether it completes or
faults (R13). -/
theorem exec_keeps_pc {i : Instr} (hi : transfers i = false) (s : State) :
    AllNext (fun t => t.pc = s.pc) (exec i s) := by
  cases i with
  | br | jmp | jsr | jsrr => cases hi
  | addReg | addImm | andReg | andImm | not | ld | ldr | ldi | lea => exact .of_next rfl
  | st | str | sti => exact .of_next rfl
  | rti | res | trap => exact .of_next rfl
  | getc =>
    simp only [exec, execGetc]
    exact .inByte (fun _ _ => .of_next rfl) rfl
  | out | halt =>
    simp only [exec, execOut, execHalt]
    exact .outBytes (fun _ => .of_next rfl) (fun _ => rfl)
  | puts => exact (putsLoop_answer ..).allNext (fun _ => rfl) (fun _ => rfl)
  | putsp => exact (putspLoop_answer ..).allNext (fun _ => rfl) (fun _ => rfl)
  | inChar =>
    simp only [exec, execIn]
    refine .outBytes (fun o => ?_) (fun _ => rfl)
    refine .inByte (fun c rest => ?_) rfl
    exact .outBytes (fun _ => .of_next rfl) (fun _ => rfl)

/-- Settles O32: a running machine executes in the advanced state, and an instruction that does not transfer control
keeps that state's pc. -/
theorem pcIsIncrementedAtFetch : Obligations.PcIsIncrementedAtFetch := by
  refine ⟨fun s hrun => ⟨s.advance, step_of_running hrun, s.toNat_advance_pc⟩, fun s t hstep hi => ?_⟩
  obtain ⟨-, hexec⟩ := step_eq_next_iff.1 hstep
  have hpc : t.pc = s.advance.pc := exec_keeps_pc hi s.advance t hexec
  rw [hpc, s.toNat_advance_pc]

end Sys2Proof.Machine
end

section
/-! The condition code by the value's number (10_state.md R16). -/

namespace Sys2Proof.Machine

open Sys2Proof.Spec

/-- Bit 15 of a word says whether its number is 0x8000 or more, so `condOf` is the law by numbers. -/
theorem condOf_eq_cc (v : Word) : condOf v = cc v := by
  have hmsb : v.msb = decide (0x8000 ≤ v.toNat) := BitVec.msb_eq_decide v
  have hzero : v = 0 ↔ v.toNat = 0 := BitVec.toNat_eq
  simp only [condOf, cc, hmsb, hzero, decide_eq_true_eq]

theorem condOf_of_ge {v : Word} (h : 0x8000 ≤ v.toNat) : condOf v = condN := by
  rw [condOf_eq_cc, cc, if_pos h]

theorem condOf_of_zero {v : Word} (h : v.toNat = 0) : condOf v = condZ := by
  rw [condOf_eq_cc, cc, if_neg (by omega), if_pos h]

theorem condOf_of_pos {v : Word} (hpos : 0 < v.toNat) (hlt : v.toNat < 0x8000) : condOf v = condP := by
  rw [condOf_eq_cc, cc, if_neg (by omega), if_neg (by omega)]

/-- Settles O2: the three cases of the law, and what `writeResult` leaves in the register and in COND. -/
theorem conditionCodeOfWrittenValue : Obligations.ConditionCodeOfWrittenValue :=
  ⟨fun _ => ⟨condOf_of_ge, condOf_of_zero, condOf_of_pos⟩,
    fun s r v => ⟨s.reg_writeResult_same r v, s.writeResult_cond r v⟩⟩

end Sys2Proof.Machine
end

section
/-! Sign extension of a field, for every width at once (30_encoding.md R53). -/

namespace Sys2Proof.Machine

theorem sext_of_msb_false {n : Nat} {v : BitVec n} (h : v.msb = false) : sext v = v.setWidth 16 :=
  BitVec.signExtend_eq_setWidth_of_msb_false h

/-- Bit by bit: below bit `n` the mask is 0 and the field stands; from bit `n` on the mask and the sign bit are both 1. -/
theorem sext_of_msb_true {n : Nat} {v : BitVec n} (h : v.msb = true) :
    sext v = v.setWidth 16 ||| ((0xFFFF : Word) <<< n) := by
  have hones : (0xFFFF : Word) = BitVec.allOnes 16 := rfl
  ext i hi
  rw [sext, hones, BitVec.getElem_signExtend, BitVec.getElem_or, BitVec.getElem_setWidth, BitVec.getElem_shiftLeft,
    BitVec.getElem_allOnes]
  by_cases hin : i < n
  · simp [hin]
  · simp [hin, h]

theorem toInt_sext {n : Nat} (hn : n ≤ 16) (v : BitVec n) : (sext v).toInt = v.toInt :=
  BitVec.toInt_signExtend_of_le hn

/-- R53 at every width: the field's top bit selects between the field and the field under a mask of ones. -/
theorem sext_eq_ite {n : Nat} (v : BitVec n) :
    sext v = if v.getLsbD (n - 1) then v.setWidth 16 ||| ((0xFFFF : Word) <<< n) else v.setWidth 16 := by
  rw [← BitVec.msb_eq_getLsbD_last]
  split
  case isTrue h => exact sext_of_msb_true h
  case isFalse h => exact sext_of_msb_false (Bool.eq_false_iff.2 h)

/-- Settles O1: the law of every width, at the four widths of the instruction fields. -/
theorem signExtensionLaw : Obligations.SignExtensionLaw :=
  ⟨fun v => ⟨sext_eq_ite v, toInt_sext (by decide) v⟩, fun v => ⟨sext_eq_ite v, toInt_sext (by decide) v⟩,
    fun v => ⟨sext_eq_ite v, toInt_sext (by decide) v⟩, fun v => ⟨sext_eq_ite v, toInt_sext (by decide) v⟩⟩

end Sys2Proof.Machine
end

section
/-! The state in which the fetched instruction executes, by the number of its pc (40_cycle.md R71). -/

namespace Sys2Proof.Machine

/-- The increment as the law writes it: a sum of numbers modulo 65536. -/
theorem State.advance_eq_setPc (s : State) :
    s.advance = s.setPc (BitVec.ofNat 16 ((s.pc.toNat + 1) % 65536)) := by
  have hpc : s.advance.pc = BitVec.ofNat 16 ((s.pc.toNat + 1) % 65536) := by
    rw [← s.toNat_advance_pc, BitVec.ofNat_toNat, BitVec.setWidth_eq]
  rw [← hpc, s.advance_pc, State.advance]

/-- Settles O30: a running machine executes the fetched word's instruction in the advanced state, whose pc is the
incremented one. -/
theorem stepRunsTheDecodedInstruction : Obligations.StepRunsTheDecodedInstruction := by
  intro s hrun
  rw [step_of_running hrun, s.advance_eq_setPc, State.fetchWord]

end Sys2Proof.Machine
end

section
/-! The rules of an instruction with a destination register: what `writeResult` changes and keeps, and the number of a
sum with a signed field (10_state.md R15, R16; 42_load_store.md R97). -/

namespace Sys2Proof.Machine

open Sys2Proof.Spec

/-- The whole frame of `writeResult`: the destination and COND take the value, nothing else changes. -/
theorem State.resultOnly_writeResult (s : State) (r : Reg) (v : Word) : resultOnly s (s.writeResult r v) r v := by
  have hcond : (s.writeResult r v).cond = cc v := condOf_eq_cc v
  have hregs : regsKept s (s.writeResult r v) [r] := fun _ hq => s.reg_writeResult_ne v (List.ne_of_not_mem_cons hq)
  exact ⟨s.reg_writeResult_same r v, hcond, rfl, hregs, fun _ => rfl, ⟨rfl, rfl⟩, ⟨rfl, rfl⟩⟩

/-- A sum of words is the sum of the one's number and the other's signed reading, modulo 65536. -/
theorem toNat_add_eq_toInt (x y : Word) : ((x + y).toNat : Int) = ((x.toNat : Int) + y.toInt) % 65536 := by
  rw [BitVec.toNat_add, BitVec.toInt_eq_toNat_cond]
  split <;> omega

/-- A sum with a sign-extended field of at most 16 bits, at every such width. -/
theorem toNat_add_sext {n : Nat} (hn : n ≤ 16) (x : Word) (v : BitVec n) :
    ((x + sext v).toNat : Int) = ((x.toNat : Int) + v.toInt) % 65536 := by
  rw [toNat_add_eq_toInt, toInt_sext hn]

end Sys2Proof.Machine
end

section
/-! ADD, immediate form (41_alu.md R81). -/

namespace Sys2Proof.Machine

theorem exec_addImm (dr sr1 : Reg) (imm : BitVec 5) (s : State) :
    exec (.addImm dr sr1 imm) s = .next (s.writeResult dr (s.reg sr1 + sext imm)) := rfl

/-- Opcode 0001 with bit 5 set selects the immediate form. -/
theorem decode_eq_addImm {w : Word} (hop : w.extractLsb' 12 4 = 0b0001#4) (hbit : w.getLsbD 5 = true) :
    decode w = .addImm (regField w 9) (regField w 6) (w.extractLsb' 0 5) := by
  have hnum : (w.extractLsb' 12 4).toNat = 1 := congrArg BitVec.toNat hop
  simp [decode, hnum, hbit]

/-- Settles O5: the decoder's rule gives the fields; the meaning is a `writeResult` of the sum, whose number and frame
the rules above state. -/
theorem addImmediateForm : Obligations.AddImmediateForm := by
  refine ⟨fun w hop hbit => decode_eq_addImm hop hbit, fun dr sr1 imm s => ?_⟩
  refine ⟨s.writeResult dr (s.reg sr1 + sext imm), exec_addImm dr sr1 imm s, ?_⟩
  rw [State.reg_writeResult_same]
  exact ⟨toNat_add_sext (by decide) _ imm, s.resultOnly_writeResult dr _⟩

end Sys2Proof.Machine
end

section
/-! Everything an instruction can answer, said once; what holds of every instruction is read off from it. -/

namespace Sys2Proof.Machine

open Sys2Proof.Spec

/-- The streams `x` and `o` that a trap routine of instruction `i`, begun in `s`, may leave (44_trap.md R111, R119). -/
structure RoutineStreams (i : Instr) (s : State) (x : InStream) (o : OutStream) : Prop where
  routine : readsInput i = true ∨ writesOutput i = true
  legal : isIllegal i = false
  linked : 7 ∈ writesRegs i
  input : x = s.input ∨ (readsInput i = true ∧ ∃ c, s.input.next = .byte c x)
  grows : s.output.bytes <+: o.bytes
  kept : writesOutput i = false → o = s.output

/-- How a trap routine can end once its streams stand in `u` (44_trap.md R112 to R117, R120). -/
inductive RoutineEnd (i : Instr) (u : State) : State → Prop
  | done (hc : condSource i = none) : RoutineEnd i u u
  | char (c : Byte) (hc : condSource i = some 0) (hw : 0 ∈ writesRegs i) : RoutineEnd i u (u.storeChar c)
  | halted (hi : ∃ ign, i = .halt ign) : RoutineEnd i u u.halt
  | failed (hc : condSource i = none ∨ (readsInput i = true ∧ condSource i = some 0)) :
      RoutineEnd i u (u.raise .ioFailure i)

/-- Everything instruction `i` can answer from `s`, with what its row says of it in each case. -/
inductive ExecAnswer (i : Instr) (s : State) : Result → Prop
  | result (r : Reg) (v : Word) (hc : condSource i = some r) (hw : r ∈ writesRegs i) (hl : links i = false)
      (hi : isIllegal i = false) : ExecAnswer i s (.next (s.writeResult r v))
  | store (a v : Word) (hm : storesToMem i = true) (hc : condSource i = none) (hl : links i = false)
      (hi : isIllegal i = false) : ExecAnswer i s (.next (s.store a v))
  | jump (a : Word) (hc : condSource i = none) (hl : links i = false) (hi : isIllegal i = false) :
      ExecAnswer i s (.next (s.setPc a))
  | call (a : Word) (hc : condSource i = none) (hw : 7 ∈ writesRegs i) (hi : isIllegal i = false) :
      ExecAnswer i s (.next (s.link.setPc a))
  | illegal (hc : condSource i = none) (hl : links i = false) (hi : isIllegal i = true) :
      ExecAnswer i s (.next (s.raise .illegalInstruction i))
  | undefinedTrap (hc : condSource i = none) (hw : 7 ∈ writesRegs i) (hi : isIllegal i = true) :
      ExecAnswer i s (.next (s.link.raise .illegalInstruction i))
  | routine {x : InStream} {o : OutStream} {t : State} (hs : RoutineStreams i s x o)
      (ht : RoutineEnd i ((s.link.setInput x).setOutput o) t) : ExecAnswer i s (.next t)
  | waits (hi : readsInput i = true) (hin : s.input.next = .waiting) : ExecAnswer i s (.fault .inputWait)
  | endless (hi : ∃ ign, i = .puts ign ∨ i = .putsp ign) : ExecAnswer i s (.fault .stringNeverEnds)

/-- BR as one write of the pc (43_control.md R100). -/
theorem exec_br (n z p : Bool) (off : BitVec 9) (s : State) :
    exec (.br n z p off) s = .next (s.setPc (if s.condMet n z p then s.pcRel off else s.pc)) := by
  simp only [exec, execBr]
  split <;> rfl

/-- A routine that writes the output only, with no character to store: what `outBytes` or a string loop gives. -/
theorem ExecAnswer.of_output {i : Instr} {s : State} {o : OutStream} {t : State} (hi : writesOutput i = true)
    (hl : isIllegal i = false) (hw : 7 ∈ writesRegs i) (ho : s.output.bytes <+: o.bytes)
    (ht : RoutineEnd i (s.link.setOutput o) t) : ExecAnswer i s (.next t) :=
  .routine (x := s.input) ⟨.inr hi, hl, hw, .inl rfl, ho, fun h => by simp [hi] at h⟩ ht

theorem execAnswer_of_loop {i : Instr} {s : State} {r : Result} (hi : ∃ ign, i = .puts ign ∨ i = .putsp ign)
    (h : LoopAnswer i s.link r) : ExecAnswer i s r := by
  have hrow : writesOutput i = true ∧ isIllegal i = false ∧ 7 ∈ writesRegs i ∧ condSource i = none := by
    obtain ⟨ign, rfl | rfl⟩ := hi <;> simp [writesOutput, isIllegal, writesRegs, condSource]
  obtain ⟨hout, hlegal, hlink, hcond⟩ := hrow
  obtain ⟨o, ho, rfl | rfl⟩ | rfl := h
  · exact .of_output hout hlegal hlink ho (.done hcond)
  · exact .of_output hout hlegal hlink ho (.failed (.inl hcond))
  · exact .endless hi

theorem execAnswer_getc (ign : BitVec 4) (s : State) : ExecAnswer (.getc ign) s (execGetc ign s) := by
  have hstreams (x : InStream) (hx : x = s.input ∨ ∃ c, s.input.next = .byte c x) :
      RoutineStreams (.getc ign) s x s.output :=
    ⟨.inl rfl, rfl, by simp [writesRegs], hx.imp_right fun h => ⟨rfl, h⟩, List.prefix_refl _, fun _ => rfl⟩
  unfold execGetc
  obtain ⟨c, rest, hin, e⟩ | ⟨-, e⟩ | ⟨hin, e⟩ := s.link.inByte_cases (.getc ign) _ <;> rw [e]
  · exact .routine (hstreams rest (.inr ⟨c, hin⟩)) (.char c rfl (by simp [writesRegs]))
  · exact .routine (hstreams s.input (.inl rfl)) (.failed (.inr ⟨rfl, rfl⟩))
  · exact .waits rfl hin

theorem execAnswer_inChar (ign : BitVec 4) (s : State) : ExecAnswer (.inChar ign) s (execIn ign s) := by
  have hstreams (x : InStream) (o : OutStream) (hx : x = s.input ∨ ∃ c, s.input.next = .byte c x)
      (ho : s.output.bytes <+: o.bytes) : RoutineStreams (.inChar ign) s x o :=
    ⟨.inl rfl, rfl, by simp [writesRegs], hx.imp_right fun h => ⟨rfl, h⟩, ho, fun h => by cases h⟩
  have hfail : condSource (.inChar ign) = none ∨
      (readsInput (.inChar ign) = true ∧ condSource (.inChar ign) = some 0) := .inr ⟨rfl, rfl⟩
  unfold execIn
  obtain ⟨o, ho, e | e⟩ := s.link.outBytes_prefix (.inChar ign) Config.inPrompt _ <;> rw [e]
  · obtain ⟨c, rest, hin, e⟩ | ⟨-, e⟩ | ⟨hin, e⟩ := (s.link.setOutput o).inByte_cases (.inChar ign) _ <;> rw [e]
    · obtain ⟨p, hp, e | e⟩ := ((s.link.setOutput o).setInput rest).outBytes_prefix (.inChar ign) [c] _ <;> rw [e]
      · exact .routine (hstreams rest p (.inr ⟨c, hin⟩) (ho.trans hp)) (.char c rfl (by simp [writesRegs]))
      · exact .routine (hstreams rest p (.inr ⟨c, hin⟩) (ho.trans hp)) (.failed hfail)
    · exact .routine (hstreams s.input o (.inl rfl) ho) (.failed hfail)
    · exact .waits rfl hin
  · exact .routine (hstreams s.input o (.inl rfl) ho) (.failed hfail)

theorem exec_answer (i : Instr) (s : State) : ExecAnswer i s (exec i s) := by
  cases i with
  | addReg dr | addImm dr | andReg dr | andImm dr | not dr | ld dr | ldr dr | ldi dr | lea dr =>
    exact .result dr _ rfl (List.mem_singleton_self dr) rfl rfl
  | st | str | sti => exact .store _ _ rfl rfl rfl rfl
  | br n z p off =>
    rw [exec_br]
    exact .jump _ rfl rfl rfl
  | jmp => exact .jump _ rfl rfl rfl
  | jsr | jsrr => exact .call _ rfl (List.mem_singleton_self 7) rfl
  | rti | res => exact .illegal rfl rfl rfl
  | trap => exact .undefinedTrap rfl (List.mem_singleton_self 7) rfl
  | getc ign => exact execAnswer_getc ign s
  | inChar ign => exact execAnswer_inChar ign s
  | puts ign => exact execAnswer_of_loop ⟨ign, .inl rfl⟩ (putsLoop_answer ..)
  | putsp ign => exact execAnswer_of_loop ⟨ign, .inr rfl⟩ (putspLoop_answer ..)
  | out ign =>
    simp only [exec, execOut]
    obtain ⟨o, ho, e | e⟩ := s.link.outBytes_prefix (.out ign) [lowByte (s.reg 0)] .next <;> rw [e]
    · exact .of_output rfl rfl (List.mem_singleton_self 7) ho (.done rfl)
    · exact .of_output rfl rfl (List.mem_singleton_self 7) ho (.failed (.inl rfl))
  | halt ign =>
    simp only [exec, execHalt]
    obtain ⟨o, ho, e | e⟩ := s.link.outBytes_prefix (.halt ign) Config.haltNotice _ <;> rw [e]
    · exact .of_output rfl rfl (List.mem_singleton_self 7) ho (.halted ⟨ign, rfl⟩)
    · exact .of_output rfl rfl (List.mem_singleton_self 7) ho (.failed (.inl rfl))

theorem ExecAnswer.of_next {i : Instr} {s t : State} (h : exec i s = .next t) : ExecAnswer i s (.next t) :=
  h ▸ exec_answer i s

end Sys2Proof.Machine
end

section
/-! The invariant, from one step to whole runs (10_state.md R15, R18; 70_reset_and_hazards.md R160 to R163, R174). -/

namespace Sys2Proof.Machine

open Sys2Proof.Spec

theorem State.Inv.fault_eq_none {s : State} (h : s.Inv) (hrun : s.run ≠ .faulted) : s.fault = none := by
  obtain ⟨-, -, hfault⟩ := h
  exact Option.not_isSome_iff_eq_none.1 (mt hfault.1 hrun)

/-- The invariant of a state made from one that meets it: memory stays canonical, COND stays or is some value's code. -/
theorem State.Inv.of_parts {s t : State} (h : s.Inv) (hmem : s.mem.wf = true → t.mem.wf = true)
    (hcond : t.cond = s.cond ∨ ∃ v, t.cond = condOf v) (hfault : t.faultAgrees) : t.Inv := by
  obtain ⟨hwf, hone, -⟩ := h
  refine ⟨hmem hwf, ?_, hfault⟩
  obtain e | ⟨v, e⟩ := hcond <;> rw [State.condOneHot, e]
  · exact hone
  · exact condOf_oneHot v

theorem State.faultAgrees_raise (s : State) (k : FaultKind) (i : Instr) : (s.raise k i).faultAgrees := by
  simp [State.faultAgrees]

theorem State.faultAgrees_halt {s : State} (h : s.fault = none) : s.halt.faultAgrees := by
  simp [State.faultAgrees, h]

theorem RoutineEnd.inv {i : Instr} {u t : State} (h : RoutineEnd i u t) (hu : u.Inv) (hrun : u.run = .running) :
    t.Inv := by
  have hnone : u.fault = none := hu.fault_eq_none (by simp [hrun])
  have ⟨_, _, hagrees⟩ := hu
  cases h with
  | done => exact hu
  | char c => exact hu.of_parts id (.inr ⟨_, rfl⟩) hagrees
  | halted => exact hu.of_parts id (.inl rfl) (State.faultAgrees_halt hnone)
  | failed => exact hu.of_parts id (.inl rfl) (u.faultAgrees_raise _ _)

/-- Every instruction keeps the invariant of a running machine. -/
theorem exec_keeps_inv {i : Instr} {s t : State} (hs : s.Inv) (hrun : s.run = .running) (h : exec i s = .next t) :
    t.Inv := by
  have ⟨_, _, hagrees⟩ := hs
  cases ExecAnswer.of_next h with
  | result r v => exact hs.of_parts id (.inr ⟨v, rfl⟩) hagrees
  | store a v => exact hs.of_parts (fun h => Memory.write_wf h a v) (.inl rfl) hagrees
  | jump | call => exact hs
  | illegal | undefinedTrap => exact hs.of_parts id (.inl rfl) (State.faultAgrees_raise _ _ _)
  | routine _ ht => exact ht.inv hs hrun

/-- Settles O43: a step is an instruction of the advanced state, which meets the invariant as the state before does. -/
theorem stepKeepsInvariant : Obligations.StepKeepsInvariant := by
  intro s t hs hstep
  obtain ⟨hrun, hexec⟩ := step_eq_next_iff.1 hstep
  have hadvance : s.advance.Inv := hs
  exact exec_keeps_inv hadvance hrun hexec

end Sys2Proof.Machine
end

section
/-! The fields of a word of each format, and the word its fields make up (30_encoding.md R51). -/

namespace Sys2Proof.Machine

theorem fields_off9 (op : BitVec 4) (a : BitVec 3) (off : BitVec 9) :
    BitVec.extractLsb' (n := 16) 12 4 (op ++ a ++ off) = op ∧
    BitVec.extractLsb' (n := 16) 9 3 (op ++ a ++ off) = a ∧
    BitVec.extractLsb' (n := 16) 0 9 (op ++ a ++ off) = off := by
  refine ⟨?_, ?_, ?_⟩ <;> repeat rw [BitVec.extractLsb'_append_eq_of_le (by decide)]
  · exact BitVec.extractLsb'_eq_self
  all_goals exact BitVec.extractLsb'_append_eq_right

theorem fields_off6 (op : BitVec 4) (a b : BitVec 3) (off : BitVec 6) :
    BitVec.extractLsb' (n := 16) 12 4 (op ++ a ++ b ++ off) = op ∧
    BitVec.extractLsb' (n := 16) 9 3 (op ++ a ++ b ++ off) = a ∧
    BitVec.extractLsb' (n := 16) 6 3 (op ++ a ++ b ++ off) = b ∧
    BitVec.extractLsb' (n := 16) 0 6 (op ++ a ++ b ++ off) = off := by
  refine ⟨?_, ?_, ?_, ?_⟩ <;> repeat rw [BitVec.extractLsb'_append_eq_of_le (by decide)]
  · exact BitVec.extractLsb'_eq_self
  all_goals exact BitVec.extractLsb'_append_eq_right

theorem fields_regForm (op : BitVec 4) (a b : BitVec 3) (bit : BitVec 1) (ign : BitVec 2) (c : BitVec 3) :
    BitVec.extractLsb' (n := 16) 12 4 (op ++ a ++ b ++ bit ++ ign ++ c) = op ∧
    BitVec.extractLsb' (n := 16) 9 3 (op ++ a ++ b ++ bit ++ ign ++ c) = a ∧
    BitVec.extractLsb' (n := 16) 6 3 (op ++ a ++ b ++ bit ++ ign ++ c) = b ∧
    BitVec.extractLsb' (n := 16) 5 1 (op ++ a ++ b ++ bit ++ ign ++ c) = bit ∧
    BitVec.extractLsb' (n := 16) 3 2 (op ++ a ++ b ++ bit ++ ign ++ c) = ign ∧
    BitVec.extractLsb' (n := 16) 0 3 (op ++ a ++ b ++ bit ++ ign ++ c) = c := by
  refine ⟨?_, ?_, ?_, ?_, ?_, ?_⟩ <;> repeat rw [BitVec.extractLsb'_append_eq_of_le (by decide)]
  · exact BitVec.extractLsb'_eq_self
  all_goals exact BitVec.extractLsb'_append_eq_right

theorem fields_immForm (op : BitVec 4) (a b : BitVec 3) (bit : BitVec 1) (imm : BitVec 5) :
    BitVec.extractLsb' (n := 16) 12 4 (op ++ a ++ b ++ bit ++ imm) = op ∧
    BitVec.extractLsb' (n := 16) 9 3 (op ++ a ++ b ++ bit ++ imm) = a ∧
    BitVec.extractLsb' (n := 16) 6 3 (op ++ a ++ b ++ bit ++ imm) = b ∧
    BitVec.extractLsb' (n := 16) 5 1 (op ++ a ++ b ++ bit ++ imm) = bit ∧
    BitVec.extractLsb' (n := 16) 0 5 (op ++ a ++ b ++ bit ++ imm) = imm := by
  refine ⟨?_, ?_, ?_, ?_, ?_⟩ <;> repeat rw [BitVec.extractLsb'_append_eq_of_le (by decide)]
  · exact BitVec.extractLsb'_eq_self
  all_goals exact BitVec.extractLsb'_append_eq_right

theorem fields_off11 (op : BitVec 4) (bit : BitVec 1) (off : BitVec 11) :
    BitVec.extractLsb' (n := 16) 12 4 (op ++ bit ++ off) = op ∧
    BitVec.extractLsb' (n := 16) 11 1 (op ++ bit ++ off) = bit ∧
    BitVec.extractLsb' (n := 16) 0 11 (op ++ bit ++ off) = off := by
  refine ⟨?_, ?_, ?_⟩ <;> repeat rw [BitVec.extractLsb'_append_eq_of_le (by decide)]
  · exact BitVec.extractLsb'_eq_self
  all_goals exact BitVec.extractLsb'_append_eq_right

theorem fields_jsrr (op : BitVec 4) (bit : BitVec 1) (hi : BitVec 2) (b : BitVec 3) (lo : BitVec 6) :
    BitVec.extractLsb' (n := 16) 12 4 (op ++ bit ++ hi ++ b ++ lo) = op ∧
    BitVec.extractLsb' (n := 16) 11 1 (op ++ bit ++ hi ++ b ++ lo) = bit ∧
    BitVec.extractLsb' (n := 16) 9 2 (op ++ bit ++ hi ++ b ++ lo) = hi ∧
    BitVec.extractLsb' (n := 16) 6 3 (op ++ bit ++ hi ++ b ++ lo) = b ∧
    BitVec.extractLsb' (n := 16) 0 6 (op ++ bit ++ hi ++ b ++ lo) = lo := by
  refine ⟨?_, ?_, ?_, ?_, ?_⟩ <;> repeat rw [BitVec.extractLsb'_append_eq_of_le (by decide)]
  · exact BitVec.extractLsb'_eq_self
  all_goals exact BitVec.extractLsb'_append_eq_right

theorem fields_br (op : BitVec 4) (n z p : BitVec 1) (off : BitVec 9) :
    BitVec.extractLsb' (n := 16) 12 4 (op ++ n ++ z ++ p ++ off) = op ∧
    BitVec.extractLsb' (n := 16) 11 1 (op ++ n ++ z ++ p ++ off) = n ∧
    BitVec.extractLsb' (n := 16) 10 1 (op ++ n ++ z ++ p ++ off) = z ∧
    BitVec.extractLsb' (n := 16) 9 1 (op ++ n ++ z ++ p ++ off) = p ∧
    BitVec.extractLsb' (n := 16) 0 9 (op ++ n ++ z ++ p ++ off) = off := by
  refine ⟨?_, ?_, ?_, ?_, ?_⟩ <;> repeat rw [BitVec.extractLsb'_append_eq_of_le (by decide)]
  · exact BitVec.extractLsb'_eq_self
  all_goals exact BitVec.extractLsb'_append_eq_right

theorem fields_ign12 (op : BitVec 4) (ign : BitVec 12) :
    BitVec.extractLsb' (n := 16) 12 4 (op ++ ign) = op ∧ BitVec.extractLsb' (n := 16) 0 12 (op ++ ign) = ign :=
  ⟨BitVec.extractLsb'_append_eq_left, BitVec.extractLsb'_append_eq_right⟩

theorem fields_trap (op ign : BitVec 4) (vect : BitVec 8) :
    BitVec.extractLsb' (n := 16) 12 4 (op ++ ign ++ vect) = op ∧
    BitVec.extractLsb' (n := 16) 8 4 (op ++ ign ++ vect) = ign ∧
    BitVec.extractLsb' (n := 16) 0 8 (op ++ ign ++ vect) = vect := by
  refine ⟨?_, ?_, ?_⟩ <;> repeat rw [BitVec.extractLsb'_append_eq_of_le (by decide)]
  · exact BitVec.extractLsb'_eq_self
  all_goals exact BitVec.extractLsb'_append_eq_right

/-- A bit of a word as a field one bit wide. -/
theorem extract_bit (w : Word) (k : Nat) : w.extractLsb' k 1 = BitVec.ofBool (w.getLsbD k) := by
  ext j hj
  obtain rfl : j = 0 := by omega
  simp

theorem getLsbD_of_field {w : Word} {k : Nat} {b : Bool} (h : w.extractLsb' k 1 = BitVec.ofBool b) :
    w.getLsbD k = b := by
  rw [extract_bit] at h
  exact BitVec.ofBool_eq_iff_eq.1 h

theorem regField_of_field {w : Word} {k : Nat} {r : Reg} (h : w.extractLsb' k 3 = regBits r) : regField w k = r := by
  rw [regField, h]
  rfl

end Sys2Proof.Machine
end

section
/-! The decoder, an equation per opcode and form (30_encoding.md R54, R55; `decode_eq_addImm` stands above). -/

namespace Sys2Proof.Machine

theorem decode_eq_br {w : Word} (hop : w.extractLsb' 12 4 = 0x0#4) :
    decode w = .br (w.getLsbD 11) (w.getLsbD 10) (w.getLsbD 9) (w.extractLsb' 0 9) := by
  rw [decode, hop]
  rfl

theorem decode_eq_addReg {w : Word} (hop : w.extractLsb' 12 4 = 0x1#4) (hbit : w.getLsbD 5 = false) :
    decode w = .addReg (regField w 9) (regField w 6) (w.extractLsb' 3 2) (regField w 0) := by
  rw [decode, hop]
  simp only [hbit]
  rfl

theorem decode_eq_ld {w : Word} (hop : w.extractLsb' 12 4 = 0x2#4) :
    decode w = .ld (regField w 9) (w.extractLsb' 0 9) := by
  rw [decode, hop]
  rfl

theorem decode_eq_st {w : Word} (hop : w.extractLsb' 12 4 = 0x3#4) :
    decode w = .st (regField w 9) (w.extractLsb' 0 9) := by
  rw [decode, hop]
  rfl

theorem decode_eq_jsr {w : Word} (hop : w.extractLsb' 12 4 = 0x4#4) (hbit : w.getLsbD 11 = true) :
    decode w = .jsr (w.extractLsb' 0 11) := by
  rw [decode, hop]
  simp only [hbit]
  rfl

theorem decode_eq_jsrr {w : Word} (hop : w.extractLsb' 12 4 = 0x4#4) (hbit : w.getLsbD 11 = false) :
    decode w = .jsrr (w.extractLsb' 9 2) (regField w 6) (w.extractLsb' 0 6) := by
  rw [decode, hop]
  simp only [hbit]
  rfl

theorem decode_eq_andImm {w : Word} (hop : w.extractLsb' 12 4 = 0x5#4) (hbit : w.getLsbD 5 = true) :
    decode w = .andImm (regField w 9) (regField w 6) (w.extractLsb' 0 5) := by
  rw [decode, hop]
  simp only [hbit]
  rfl

theorem decode_eq_andReg {w : Word} (hop : w.extractLsb' 12 4 = 0x5#4) (hbit : w.getLsbD 5 = false) :
    decode w = .andReg (regField w 9) (regField w 6) (w.extractLsb' 3 2) (regField w 0) := by
  rw [decode, hop]
  simp only [hbit]
  rfl

theorem decode_eq_ldr {w : Word} (hop : w.extractLsb' 12 4 = 0x6#4) :
    decode w = .ldr (regField w 9) (regField w 6) (w.extractLsb' 0 6) := by
  rw [decode, hop]
  rfl

theorem decode_eq_str {w : Word} (hop : w.extractLsb' 12 4 = 0x7#4) :
    decode w = .str (regField w 9) (regField w 6) (w.extractLsb' 0 6) := by
  rw [decode, hop]
  rfl

theorem decode_eq_rti {w : Word} (hop : w.extractLsb' 12 4 = 0x8#4) :
    decode w = .rti (w.extractLsb' 0 12) := by
  rw [decode, hop]
  rfl

theorem decode_eq_not {w : Word} (hop : w.extractLsb' 12 4 = 0x9#4) :
    decode w = .not (regField w 9) (regField w 6) (w.extractLsb' 0 6) := by
  rw [decode, hop]
  rfl

theorem decode_eq_ldi {w : Word} (hop : w.extractLsb' 12 4 = 0xA#4) :
    decode w = .ldi (regField w 9) (w.extractLsb' 0 9) := by
  rw [decode, hop]
  rfl

theorem decode_eq_sti {w : Word} (hop : w.extractLsb' 12 4 = 0xB#4) :
    decode w = .sti (regField w 9) (w.extractLsb' 0 9) := by
  rw [decode, hop]
  rfl

theorem decode_eq_jmp {w : Word} (hop : w.extractLsb' 12 4 = 0xC#4) :
    decode w = .jmp (w.extractLsb' 9 3) (regField w 6) (w.extractLsb' 0 6) := by
  rw [decode, hop]
  rfl

theorem decode_eq_res {w : Word} (hop : w.extractLsb' 12 4 = 0xD#4) :
    decode w = .res (w.extractLsb' 0 12) := by
  rw [decode, hop]
  rfl

theorem decode_eq_lea {w : Word} (hop : w.extractLsb' 12 4 = 0xE#4) :
    decode w = .lea (regField w 9) (w.extractLsb' 0 9) := by
  rw [decode, hop]
  rfl

theorem decode_eq_decodeTrap {w : Word} (hop : w.extractLsb' 12 4 = 0xF#4) :
    decode w = decodeTrap (w.extractLsb' 8 4) (w.extractLsb' 0 8) := by
  rw [decode, hop]
  rfl

theorem decodeTrap_of_not_defined (ign : BitVec 4) {vect : BitVec 8} (h : vect ∉ definedVectors) :
    decodeTrap ign vect = .trap ign vect := by
  simp only [definedVectors, List.mem_cons, List.not_mem_nil, or_false, not_or] at h
  obtain ⟨h0, h1, h2, h3, h4, h5⟩ := h
  simp only [decodeTrap, if_neg h0, if_neg h1, if_neg h2, if_neg h3, if_neg h4, if_neg h5]

end Sys2Proof.Machine
end

section
/-! Decoding the word of an instruction (30_encoding.md R51, R54). -/

namespace Sys2Proof.Machine

/-- The word of a TRAP decodes to the row its vector selects. -/
theorem decode_trapWord (ign : BitVec 4) (vect : BitVec 8) : decode (0xF#4 ++ ign ++ vect) = decodeTrap ign vect := by
  obtain ⟨hop, hign, hvect⟩ := fields_trap 0xF#4 ign vect
  exact (decode_eq_decodeTrap hop).trans (by rw [hign, hvect])

/-- Settles O46: the decoder selects the instruction by its opcode, form bit or vector, and reads back each field. -/
theorem decodeOfEncode : Obligations.DecodeOfEncode := by
  intro i hi
  cases i with
  | br n z p off =>
    obtain ⟨hop, hn, hz, hp, hoff⟩ := fields_br 0x0#4 (.ofBool n) (.ofBool z) (.ofBool p) off
    exact (decode_eq_br hop).trans (by rw [getLsbD_of_field hn, getLsbD_of_field hz, getLsbD_of_field hp, hoff])
  | ld r off =>
    obtain ⟨hop, hr, hoff⟩ := fields_off9 0x2#4 (regBits r) off
    exact (decode_eq_ld hop).trans (by rw [regField_of_field hr, hoff])
  | st r off =>
    obtain ⟨hop, hr, hoff⟩ := fields_off9 0x3#4 (regBits r) off
    exact (decode_eq_st hop).trans (by rw [regField_of_field hr, hoff])
  | ldi r off =>
    obtain ⟨hop, hr, hoff⟩ := fields_off9 0xA#4 (regBits r) off
    exact (decode_eq_ldi hop).trans (by rw [regField_of_field hr, hoff])
  | sti r off =>
    obtain ⟨hop, hr, hoff⟩ := fields_off9 0xB#4 (regBits r) off
    exact (decode_eq_sti hop).trans (by rw [regField_of_field hr, hoff])
  | lea r off =>
    obtain ⟨hop, hr, hoff⟩ := fields_off9 0xE#4 (regBits r) off
    exact (decode_eq_lea hop).trans (by rw [regField_of_field hr, hoff])
  | ldr r base off =>
    obtain ⟨hop, hr, hbase, hoff⟩ := fields_off6 0x6#4 (regBits r) (regBits base) off
    exact (decode_eq_ldr hop).trans (by rw [regField_of_field hr, regField_of_field hbase, hoff])
  | str r base off =>
    obtain ⟨hop, hr, hbase, hoff⟩ := fields_off6 0x7#4 (regBits r) (regBits base) off
    exact (decode_eq_str hop).trans (by rw [regField_of_field hr, regField_of_field hbase, hoff])
  | not r base off =>
    obtain ⟨hop, hr, hbase, hoff⟩ := fields_off6 0x9#4 (regBits r) (regBits base) off
    exact (decode_eq_not hop).trans (by rw [regField_of_field hr, regField_of_field hbase, hoff])
  | addReg dr sr1 ign sr2 =>
    obtain ⟨hop, hdr, hsr1, hbit, hign, hsr2⟩ :=
      fields_regForm 0x1#4 (regBits dr) (regBits sr1) 0#1 ign (regBits sr2)
    exact (decode_eq_addReg hop (getLsbD_of_field (b := false) hbit)).trans
      (by rw [regField_of_field hdr, regField_of_field hsr1, hign, regField_of_field hsr2])
  | andReg dr sr1 ign sr2 =>
    obtain ⟨hop, hdr, hsr1, hbit, hign, hsr2⟩ :=
      fields_regForm 0x5#4 (regBits dr) (regBits sr1) 0#1 ign (regBits sr2)
    exact (decode_eq_andReg hop (getLsbD_of_field (b := false) hbit)).trans
      (by rw [regField_of_field hdr, regField_of_field hsr1, hign, regField_of_field hsr2])
  | addImm dr sr1 imm =>
    obtain ⟨hop, hdr, hsr1, hbit, himm⟩ := fields_immForm 0x1#4 (regBits dr) (regBits sr1) 1#1 imm
    exact (decode_eq_addImm hop (getLsbD_of_field (b := true) hbit)).trans
      (by rw [regField_of_field hdr, regField_of_field hsr1, himm])
  | andImm dr sr1 imm =>
    obtain ⟨hop, hdr, hsr1, hbit, himm⟩ := fields_immForm 0x5#4 (regBits dr) (regBits sr1) 1#1 imm
    exact (decode_eq_andImm hop (getLsbD_of_field (b := true) hbit)).trans
      (by rw [regField_of_field hdr, regField_of_field hsr1, himm])
  | jmp ignHi base ignLo =>
    obtain ⟨hop, hhi, hbase, hlo⟩ := fields_off6 0xC#4 ignHi (regBits base) ignLo
    exact (decode_eq_jmp hop).trans (by rw [hhi, regField_of_field hbase, hlo])
  | jsr off =>
    obtain ⟨hop, hbit, hoff⟩ := fields_off11 0x4#4 1#1 off
    exact (decode_eq_jsr hop (getLsbD_of_field (b := true) hbit)).trans (by rw [hoff])
  | jsrr ignHi base ignLo =>
    obtain ⟨hop, hbit, hhi, hbase, hlo⟩ := fields_jsrr 0x4#4 0#1 ignHi (regBits base) ignLo
    exact (decode_eq_jsrr hop (getLsbD_of_field (b := false) hbit)).trans
      (by rw [hhi, regField_of_field hbase, hlo])
  | rti ign =>
    obtain ⟨hop, hign⟩ := fields_ign12 0x8#4 ign
    exact (decode_eq_rti hop).trans (by rw [hign])
  | res ign =>
    obtain ⟨hop, hign⟩ := fields_ign12 0xD#4 ign
    exact (decode_eq_res hop).trans (by rw [hign])
  | getc ign | out ign | puts ign | inChar ign | putsp ign | halt ign => exact decode_trapWord ign _
  | trap ign vect =>
    have hvect : vect ∉ definedVectors := by simpa [Instr.wf] using hi
    exact (decode_trapWord ign vect).trans (decodeTrap_of_not_defined ign hvect)

end Sys2Proof.Machine
end

section
/-! The word made up of the fields of a word, format by format, and the whole decoder undone (30_encoding.md R55). -/

namespace Sys2Proof.Machine

section
variable {w : Word} {op : BitVec 4} {bit : Bool}

theorem join_off9 (hop : w.extractLsb' 12 4 = op) :
    op ++ w.extractLsb' 9 3 ++ w.extractLsb' 0 9 = w := by
  rw [← hop]
  repeat rw [BitVec.extractLsb'_append_extractLsb'_eq_extractLsb' (by decide)]
  exact BitVec.extractLsb'_eq_self

theorem join_off6 (hop : w.extractLsb' 12 4 = op) :
    op ++ w.extractLsb' 9 3 ++ w.extractLsb' 6 3 ++ w.extractLsb' 0 6 = w := by
  rw [← hop]
  repeat rw [BitVec.extractLsb'_append_extractLsb'_eq_extractLsb' (by decide)]
  exact BitVec.extractLsb'_eq_self

theorem join_regForm (hop : w.extractLsb' 12 4 = op) (hbit : w.getLsbD 5 = bit) :
    op ++ w.extractLsb' 9 3 ++ w.extractLsb' 6 3 ++ BitVec.ofBool bit ++ w.extractLsb' 3 2 ++
      w.extractLsb' 0 3 = w := by
  rw [← hop, ← hbit, ← extract_bit]
  repeat rw [BitVec.extractLsb'_append_extractLsb'_eq_extractLsb' (by decide)]
  exact BitVec.extractLsb'_eq_self

theorem join_immForm (hop : w.extractLsb' 12 4 = op) (hbit : w.getLsbD 5 = bit) :
    op ++ w.extractLsb' 9 3 ++ w.extractLsb' 6 3 ++ BitVec.ofBool bit ++ w.extractLsb' 0 5 = w := by
  rw [← hop, ← hbit, ← extract_bit]
  repeat rw [BitVec.extractLsb'_append_extractLsb'_eq_extractLsb' (by decide)]
  exact BitVec.extractLsb'_eq_self

theorem join_off11 (hop : w.extractLsb' 12 4 = op) (hbit : w.getLsbD 11 = bit) :
    op ++ BitVec.ofBool bit ++ w.extractLsb' 0 11 = w := by
  rw [← hop, ← hbit, ← extract_bit]
  repeat rw [BitVec.extractLsb'_append_extractLsb'_eq_extractLsb' (by decide)]
  exact BitVec.extractLsb'_eq_self

theorem join_jsrr (hop : w.extractLsb' 12 4 = op) (hbit : w.getLsbD 11 = bit) :
    op ++ BitVec.ofBool bit ++ w.extractLsb' 9 2 ++ w.extractLsb' 6 3 ++ w.extractLsb' 0 6 = w := by
  rw [← hop, ← hbit, ← extract_bit]
  repeat rw [BitVec.extractLsb'_append_extractLsb'_eq_extractLsb' (by decide)]
  exact BitVec.extractLsb'_eq_self

theorem join_br (hop : w.extractLsb' 12 4 = op) :
    op ++ BitVec.ofBool (w.getLsbD 11) ++ BitVec.ofBool (w.getLsbD 10) ++ BitVec.ofBool (w.getLsbD 9) ++
      w.extractLsb' 0 9 = w := by
  rw [← hop, ← extract_bit, ← extract_bit, ← extract_bit]
  repeat rw [BitVec.extractLsb'_append_extractLsb'_eq_extractLsb' (by decide)]
  exact BitVec.extractLsb'_eq_self

theorem join_trap (hop : w.extractLsb' 12 4 = op) :
    op ++ w.extractLsb' 8 4 ++ w.extractLsb' 0 8 = w := by
  rw [← hop]
  repeat rw [BitVec.extractLsb'_append_extractLsb'_eq_extractLsb' (by decide)]
  exact BitVec.extractLsb'_eq_self

theorem join_ign12 (hop : w.extractLsb' 12 4 = op) : op ++ w.extractLsb' 0 12 = w := by
  rw [← hop]
  exact BitVec.extractLsb'_append_extractLsb' (w := 4) (len := 12)

end

/-- Whatever row the vector selects, it is an instruction whose word holds that vector. -/
theorem decodeTrap_round_trip (ign : BitVec 4) (vect : BitVec 8) :
    (decodeTrap ign vect).wf = true ∧ encode (decodeTrap ign vect) = 0xF#4 ++ ign ++ vect := by
  by_cases h : vect ∈ definedVectors
  · simp only [definedVectors, List.mem_cons, List.not_mem_nil, or_false] at h
    obtain rfl | rfl | rfl | rfl | rfl | rfl := h <;> exact ⟨rfl, rfl⟩
  · rw [decodeTrap_of_not_defined ign h]
    exact ⟨by simpa [Instr.wf] using h, rfl⟩

theorem opcode_cases (op : BitVec 4) : op = 0x0#4 ∨ op = 0x1#4 ∨ op = 0x2#4 ∨ op = 0x3#4 ∨ op = 0x4#4 ∨ op = 0x5#4 ∨
    op = 0x6#4 ∨ op = 0x7#4 ∨ op = 0x8#4 ∨ op = 0x9#4 ∨ op = 0xA#4 ∨ op = 0xB#4 ∨ op = 0xC#4 ∨ op = 0xD#4 ∨
    op = 0xE#4 ∨ op = 0xF#4 := by
  revert op
  decide

/-- Settles O47: opcode by opcode, the instruction is well-formed and its word is that of the fields read. -/
theorem encodeOfDecode : Obligations.EncodeOfDecode := by
  intro w
  obtain hop | hop | hop | hop | hop | hop | hop | hop | hop | hop | hop | hop | hop | hop | hop | hop :=
    opcode_cases (w.extractLsb' 12 4)
  · rw [decode_eq_br hop]; exact ⟨rfl, (join_br hop :)⟩
  · cases hbit : w.getLsbD 5 with
    | true => rw [decode_eq_addImm hop hbit]; exact ⟨rfl, (join_immForm hop hbit :)⟩
    | false => rw [decode_eq_addReg hop hbit]; exact ⟨rfl, (join_regForm hop hbit :)⟩
  · rw [decode_eq_ld hop]; exact ⟨rfl, (join_off9 hop :)⟩
  · rw [decode_eq_st hop]; exact ⟨rfl, (join_off9 hop :)⟩
  · cases hbit : w.getLsbD 11 with
    | true => rw [decode_eq_jsr hop hbit]; exact ⟨rfl, (join_off11 hop hbit :)⟩
    | false => rw [decode_eq_jsrr hop hbit]; exact ⟨rfl, (join_jsrr hop hbit :)⟩
  · cases hbit : w.getLsbD 5 with
    | true => rw [decode_eq_andImm hop hbit]; exact ⟨rfl, (join_immForm hop hbit :)⟩
    | false => rw [decode_eq_andReg hop hbit]; exact ⟨rfl, (join_regForm hop hbit :)⟩
  · rw [decode_eq_ldr hop]; exact ⟨rfl, (join_off6 hop :)⟩
  · rw [decode_eq_str hop]; exact ⟨rfl, (join_off6 hop :)⟩
  · rw [decode_eq_rti hop]; exact ⟨rfl, (join_ign12 hop :)⟩
  · rw [decode_eq_not hop]; exact ⟨rfl, (join_off6 hop :)⟩
  · rw [decode_eq_ldi hop]; exact ⟨rfl, (join_off9 hop :)⟩
  · rw [decode_eq_sti hop]; exact ⟨rfl, (join_off9 hop :)⟩
  · rw [decode_eq_jmp hop]; exact ⟨rfl, (join_off6 hop :)⟩
  · rw [decode_eq_res hop]; exact ⟨rfl, (join_ign12 hop :)⟩
  · rw [decode_eq_lea hop]; exact ⟨rfl, (join_off9 hop :)⟩
  · obtain ⟨hwf, hword⟩ := decodeTrap_round_trip (w.extractLsb' 8 4) (w.extractLsb' 0 8)
    rw [decode_eq_decodeTrap hop]; exact ⟨hwf, hword.trans (join_trap hop)⟩

/-- Settles O51: six words, decoded by evaluation. -/
theorem sampleWordsDecode : Obligations.SampleWordsDecode := by
  unfold Obligations.SampleWordsDecode
  decide

end Sys2Proof.Machine
end

section
/-! The words of each row of the opcode table (30_encoding.md R55). -/

namespace Sys2Proof.Machine

open Sys2Proof.Spec

/-- The word of every instruction matches its own row. -/
theorem encode_matches_row (i : Instr) : encode i &&& rowMask i = rowMatch i := by
  cases i with
  | br => exact Laws.TableRow.br ..
  | addReg => exact Laws.TableRow.addReg ..
  | addImm => exact Laws.TableRow.addImm ..
  | ld => exact Laws.TableRow.ld ..
  | st => exact Laws.TableRow.st ..
  | jsr => exact Laws.TableRow.jsr ..
  | jsrr => exact Laws.TableRow.jsrr ..
  | andReg => exact Laws.TableRow.andReg ..
  | andImm => exact Laws.TableRow.andImm ..
  | ldr => exact Laws.TableRow.ldr ..
  | str => exact Laws.TableRow.str ..
  | rti => exact Laws.TableRow.rti ..
  | not => exact Laws.TableRow.not ..
  | ldi => exact Laws.TableRow.ldi ..
  | sti => exact Laws.TableRow.sti ..
  | jmp => exact Laws.TableRow.jmp ..
  | res => exact Laws.TableRow.res ..
  | lea => exact Laws.TableRow.lea ..
  | getc => exact Laws.TableRow.getc ..
  | out => exact Laws.TableRow.out ..
  | puts => exact Laws.TableRow.puts ..
  | inChar => exact Laws.TableRow.inChar ..
  | putsp => exact Laws.TableRow.putsp ..
  | halt => exact Laws.TableRow.halt ..
  | trap => exact Laws.TableRow.trap ..

/-- A field that the mask covers whole is the match's. -/
theorem field_of_match {w m k : Word} (h : w &&& m = k) {lo len : Nat}
    (hm : m.extractLsb' lo len = BitVec.allOnes len) : w.extractLsb' lo len = k.extractLsb' lo len := by
  rw [← h, BitVec.extractLsb'_and, hm, BitVec.and_allOnes]

theorem bit_of_match {w m k : Word} (h : w &&& m = k) {j : Nat} (hm : m.getLsbD j = true) :
    w.getLsbD j = k.getLsbD j := by
  rw [← h, BitVec.getLsbD_and, hm, Bool.and_true]

/-- Every mask covers the opcode. -/
theorem opcode_of_match {w : Word} {i : Instr} (h : w &&& rowMask i = rowMatch i) :
    w.extractLsb' 12 4 = (rowMatch i).extractLsb' 12 4 :=
  field_of_match h (by cases i <;> simp [rowMask])

/-- A word that matches the row of `i`, not the TRAP catch-all, decodes to an instruction of that row. -/
theorem row_decode_of_match {w : Word} {i : Instr} (h : w &&& rowMask i = rowMatch i)
    (hi : ∀ ign vect, i ≠ .trap ign vect) : rowMask i = rowMask (decode w) ∧ rowMatch i = rowMatch (decode w) := by
  have hop := opcode_of_match h
  cases i with
  | br => rw [decode_eq_br (by simpa [rowMatch] using hop)]; exact ⟨rfl, rfl⟩
  | ld => rw [decode_eq_ld (by simpa [rowMatch] using hop)]; exact ⟨rfl, rfl⟩
  | st => rw [decode_eq_st (by simpa [rowMatch] using hop)]; exact ⟨rfl, rfl⟩
  | ldr => rw [decode_eq_ldr (by simpa [rowMatch] using hop)]; exact ⟨rfl, rfl⟩
  | str => rw [decode_eq_str (by simpa [rowMatch] using hop)]; exact ⟨rfl, rfl⟩
  | rti => rw [decode_eq_rti (by simpa [rowMatch] using hop)]; exact ⟨rfl, rfl⟩
  | not => rw [decode_eq_not (by simpa [rowMatch] using hop)]; exact ⟨rfl, rfl⟩
  | ldi => rw [decode_eq_ldi (by simpa [rowMatch] using hop)]; exact ⟨rfl, rfl⟩
  | sti => rw [decode_eq_sti (by simpa [rowMatch] using hop)]; exact ⟨rfl, rfl⟩
  | jmp => rw [decode_eq_jmp (by simpa [rowMatch] using hop)]; exact ⟨rfl, rfl⟩
  | res => rw [decode_eq_res (by simpa [rowMatch] using hop)]; exact ⟨rfl, rfl⟩
  | lea => rw [decode_eq_lea (by simpa [rowMatch] using hop)]; exact ⟨rfl, rfl⟩
  | addReg =>
    have hbit := bit_of_match (j := 5) h (by simp [rowMask])
    rw [decode_eq_addReg (by simpa [rowMatch] using hop) (by simpa [rowMatch] using hbit)]
    exact ⟨rfl, rfl⟩
  | addImm =>
    have hbit := bit_of_match (j := 5) h (by simp [rowMask])
    rw [decode_eq_addImm (by simpa [rowMatch] using hop) (by simpa [rowMatch] using hbit)]
    exact ⟨rfl, rfl⟩
  | andReg =>
    have hbit := bit_of_match (j := 5) h (by simp [rowMask])
    rw [decode_eq_andReg (by simpa [rowMatch] using hop) (by simpa [rowMatch] using hbit)]
    exact ⟨rfl, rfl⟩
  | andImm =>
    have hbit := bit_of_match (j := 5) h (by simp [rowMask])
    rw [decode_eq_andImm (by simpa [rowMatch] using hop) (by simpa [rowMatch] using hbit)]
    exact ⟨rfl, rfl⟩
  | jsr =>
    have hbit := bit_of_match (j := 11) h (by simp [rowMask])
    rw [decode_eq_jsr (by simpa [rowMatch] using hop) (by simpa [rowMatch] using hbit)]
    exact ⟨rfl, rfl⟩
  | jsrr =>
    have hbit := bit_of_match (j := 11) h (by simp [rowMask])
    rw [decode_eq_jsrr (by simpa [rowMatch] using hop) (by simpa [rowMatch] using hbit)]
    exact ⟨rfl, rfl⟩
  | getc | out | puts | inChar | putsp | halt =>
    have hvect := field_of_match (lo := 0) (len := 8) h (by simp [rowMask])
    simp only [rowMatch] at hvect
    rw [decode_eq_decodeTrap (by simpa [rowMatch] using hop), hvect]
    exact ⟨rfl, rfl⟩
  | trap ign vect => exact absurd rfl (hi ign vect)

/-- Settles O48: a word is the word of its own instruction, so it matches that row; any other row is ruled out above. -/
theorem everyWordMatchesItsRow : Obligations.EveryWordMatchesItsRow := by
  intro w
  obtain ⟨-, hword⟩ := encodeOfDecode w
  refine ⟨by simpa [hword] using encode_matches_row (decode w), fun i hi => ?_⟩
  by_cases htrap : ∃ ign vect, i = .trap ign vect
  · exact .inr htrap
  · exact .inl (row_decode_of_match hi fun ign vect e => htrap ⟨ign, vect, e⟩)

end Sys2Proof.Machine
end

section
/-! What every instruction keeps and how a machine stops, read off from `exec_answer` (10_state.md R11, R15, R17, R21;
44_trap.md R110, R111, R119 to R121; 60_exceptions.md R140, R144). -/

namespace Sys2Proof.Machine

open Sys2Proof.Spec

/-- A write of a listed register keeps the others. -/
theorem regsKept_writeResult {s : State} {r : Reg} {ws : List Reg} (v : Word) (h : r ∈ ws) :
    regsKept s (s.writeResult r v) ws :=
  fun _ hq => s.reg_writeResult_ne v fun e => hq (e ▸ h)

theorem regsKept_link {s : State} {ws : List Reg} (h : 7 ∈ ws) : regsKept s s.link ws :=
  fun _ hq => s.reg_link_ne fun e => hq (e ▸ h)

theorem regsKept_trans {s t u : State} {ws : List Reg} (h : regsKept s t ws) (h' : regsKept t u ws) :
    regsKept s u ws :=
  fun q hq => (h' q hq).trans (h q hq)

theorem RoutineEnd.regsKept {i : Instr} {u t : State} (h : RoutineEnd i u t) : regsKept u t (writesRegs i) := by
  cases h with
  | char c _ hw => exact regsKept_writeResult (zext8 c) hw
  | done | halted | failed => exact fun _ _ => rfl

/-- Settles O34: each answer writes the registers of the row only, R7 by the link among them. -/
theorem registersWrittenAreThoseListed : Obligations.RegistersWrittenAreThoseListed := by
  intro i s t h
  cases ExecAnswer.of_next h with
  | result r v _ hw => exact regsKept_writeResult v hw
  | store | jump | illegal => exact fun _ _ => rfl
  | call _ _ hw | undefinedTrap _ hw => exact regsKept_link hw
  | routine hs ht => exact regsKept_trans (regsKept_link hs.linked) ht.regsKept

theorem RoutineEnd.mem {i : Instr} {u t : State} (h : RoutineEnd i u t) : t.mem = u.mem := by
  cases h <;> rfl

/-- Settles O37: the one answer that changes memory is a store's. -/
theorem memoryWrittenOnlyByStores : Obligations.MemoryWrittenOnlyByStores := by
  intro i s t h hi a
  cases ExecAnswer.of_next h with
  | store _ _ hm => simp [hm] at hi
  | result | jump | call | illegal | undefinedTrap => rfl
  | routine _ ht => exact congrArg (Memory.read · a) ht.mem

theorem RoutineEnd.streams {i : Instr} {u t : State} (h : RoutineEnd i u t) : streamsKept u t := by
  cases h <;> exact ⟨rfl, rfl⟩

/-- Settles O38: only a routine's answer has other streams, and those are the ones `RoutineStreams` allows. -/
theorem streamsTouchedOnlyByTraps : Obligations.StreamsTouchedOnlyByTraps := by
  intro i s t h
  cases ExecAnswer.of_next h with
  | result | store | jump | call | illegal | undefinedTrap => exact ⟨List.prefix_refl _, fun _ => rfl, .inl rfl⟩
  | routine hs ht =>
    obtain ⟨hin, hout⟩ := ht.streams
    rw [hin, hout]
    exact ⟨hs.grows, hs.kept, hs.input⟩

theorem RoutineEnd.reg_ne_zero {i : Instr} {u t : State} (h : RoutineEnd i u t) {q : Reg} (hq : q ≠ 0) :
    t.reg q = u.reg q := by
  cases h with
  | char c => exact u.reg_storeChar_ne c hq
  | done | halted | failed => rfl

/-- Settles O39: every answer of a linking instruction is made from the linked state, and no routine ends by writing
R7 again. -/
theorem linkRegisterIsClobbered : Obligations.LinkRegisterIsClobbered := by
  intro i s t h hi
  cases ExecAnswer.of_next h with
  | result _ _ _ _ hl | store _ _ _ _ hl | jump _ _ hl | illegal _ hl => simp [hl] at hi
  | call | undefinedTrap => exact s.reg_link_same
  | routine _ ht => exact (ht.reg_ne_zero (by decide)).trans s.reg_link_same

/-- Settles O33: in each answer COND is the code of the register written, or as before; only a failing GETC or IN sets
COND by its row and keeps it. -/
theorem condWrittenOnlyByItsSetters : Obligations.CondWrittenOnlyByItsSetters := by
  intro i s t h
  cases ExecAnswer.of_next h with
  | result r v hc =>
    rw [hc]
    exact .inl (by rw [State.writeResult_cond, State.reg_writeResult_same, condOf_eq_cc])
  | store _ _ _ hc | jump _ hc | call _ hc | illegal hc | undefinedTrap hc => rw [hc]; rfl
  | routine hs ht =>
    cases ht with
    | done hc => rw [hc]; rfl
    | char c hc =>
      rw [hc]
      exact .inl (by rw [State.storeChar_cond, State.reg_storeChar_same, condOf_eq_cc])
    | halted hi =>
      obtain ⟨ign, rfl⟩ := hi
      rfl
    | failed hc =>
      obtain hc | ⟨hin, hc⟩ := hc <;> rw [hc]
      · rfl
      · exact .inr ⟨hin, ⟨rfl, rfl⟩, rfl⟩

/-- Settles O40: in each answer RUN is as before, or it is HALT's, or a fault's with its own record. -/
theorem howAMachineStops : Obligations.HowAMachineStops := by
  intro i s t hrun h
  cases ExecAnswer.of_next h with
  | result _ _ _ _ _ hi | store _ _ _ _ _ hi | jump _ _ _ hi | call _ _ _ hi => simp [hrun, hi]
  | illegal _ _ hi => simp [hi, faultedBy]
  | undefinedTrap _ _ hi => simp [hi, faultedBy]
  | routine hs ht =>
    cases ht with
    | done | char => simp [hrun, hs.legal]
    | halted hi => simp [hs.legal, hi]
    | failed => simp [hs.legal, hs.routine, faultedBy]

end Sys2Proof.Machine
end

section
/-! The invariant from power-on on, and over whole runs (70_reset_and_hazards.md R160 to R163, R174). -/

namespace Sys2Proof.Machine

open Sys2Proof.Spec

/-- Start meets the invariant from any state whose memory is canonical. -/
theorem State.start_inv {s : State} (h : s.mem.wf = true) : s.start.Inv :=
  ⟨h, .inr (.inl rfl), by simp [State.faultAgrees]⟩

theorem loadImages_wf (images : List Image) : ∀ {s : State}, s.mem.wf = true →
    (images.foldl State.loadImage s).mem.wf = true := by
  induction images with
  | nil => exact id
  | cons img images ih => exact fun h => ih (Memory.loadFrom_wf img.words img.origin.toNat h)

/-- Settles O45: power-on's empty memory is canonical, each image keeps it so, and start does the rest. -/
theorem launchMeetsInvariant : Obligations.LaunchMeetsInvariant :=
  fun _ _ _ _ _ images => State.start_inv (loadImages_wf images rfl)

/-- Settles O44: the reset state is a launch state. -/
theorem resetMeetsInvariant : Obligations.ResetMeetsInvariant := by
  rw [Obligations.ResetMeetsInvariant, State.reset_eq_launch 0 0]
  exact launchMeetsInvariant ..

theorem core_step : Sys2Proof.core.step = step := rfl

theorem run_succ {s s' : State} (h : step s = .next s') (n : Nat) :
    Sys2Proof.core.run (n + 1) s = Sys2Proof.core.run n s' := by
  simp only [Host.Core.run, core_step, h]

/-- A longer run that answers a state has taken its first step. -/
theorem exists_step_of_run_succ {s t : State} {n : Nat} (h : Sys2Proof.core.run (n + 1) s = .next t) :
    ∃ s', step s = .next s' ∧ Sys2Proof.core.run n s' = .next t := by
  cases hstep : step s with
  | next s' => exact ⟨s', rfl, run_succ hstep n ▸ h⟩
  | fault f => simp [Host.Core.run, core_step, hstep] at h
  | refused r => simp [Host.Core.run, core_step, hstep] at h

/-- The induction over runs: what every step keeps holds of every state a run answers. -/
theorem run_keeps {P : State → Prop} (hstep : ∀ s s', P s → step s = .next s' → P s') (n : Nat) :
    ∀ {s t : State}, P s → Sys2Proof.core.run n s = .next t → P t := by
  induction n with
  | zero => rintro s _ hs ⟨⟩; exact hs
  | succ n ih =>
    intro s t hs hrun
    obtain ⟨s', hs', hrest⟩ := exists_step_of_run_succ hrun
    exact ih (hstep s s' hs hs') hrest

/-- Settles O60: the run keeps the invariant, whose last part ties FAULT to RUN. -/
theorem runEndsHaltedOrWithARecord : Obligations.RunEndsHaltedOrWithARecord := by
  intro n s t hs hrun hover
  have ht : t.Inv := run_keeps stepKeepsInvariant n hs hrun
  obtain hhalt | hfault := hover
  · exact .inl ⟨hhalt, ht.fault_eq_none (by simp [hhalt])⟩
  · obtain ⟨-, -, hagrees⟩ := ht
    exact .inr ⟨hfault, Option.isSome_iff_exists.1 (hagrees.2 hfault)⟩

end Sys2Proof.Machine
end

section
/-! The illegal words by their numbers, and the step that meets one (30_encoding.md R56; 60_exceptions.md R140). -/

namespace Sys2Proof.Machine

open Sys2Proof.Spec

theorem isIllegal_decodeTrap (ign : BitVec 4) (vect : BitVec 8) :
    isIllegal (decodeTrap ign vect) = true ↔ vect ∉ definedVectors := by
  by_cases h : vect ∈ definedVectors
  · simp only [h, not_true, iff_false]
    simp only [definedVectors, List.mem_cons, List.not_mem_nil, or_false] at h
    obtain rfl | rfl | rfl | rfl | rfl | rfl := h <;> simp [decodeTrap, isIllegal]
  · simp [decodeTrap_of_not_defined ign h, isIllegal, h]

/-- Which words are illegal, by opcode and vector. -/
theorem isIllegal_decode (w : Word) : isIllegal (decode w) = true ↔ w.extractLsb' 12 4 = 0x8#4 ∨
    w.extractLsb' 12 4 = 0xD#4 ∨ (w.extractLsb' 12 4 = 0xF#4 ∧ w.extractLsb' 0 8 ∉ definedVectors) := by
  obtain hop | hop | hop | hop | hop | hop | hop | hop | hop | hop | hop | hop | hop | hop | hop | hop :=
    opcode_cases (w.extractLsb' 12 4)
  all_goals simp [decode, hop, apply_ite isIllegal, isIllegal_decodeTrap]
  all_goals simp [isIllegal]

theorem toNat_opcode (w : Word) : (w.extractLsb' 12 4).toNat = w.toNat / 4096 := by
  have hw := w.isLt
  rw [BitVec.extractLsb'_toNat, Nat.shiftRight_eq_div_pow]
  omega

theorem toNat_vect (w : Word) : (w.extractLsb' 0 8).toNat = w.toNat % 256 := by
  rw [BitVec.extractLsb'_toNat, Nat.shiftRight_zero]

theorem mem_definedVectors_iff (vect : BitVec 8) : vect ∈ definedVectors ↔ 0x20 ≤ vect.toNat ∧ vect.toNat ≤ 0x25 := by
  simp only [definedVectors, List.mem_cons, List.not_mem_nil, or_false, BitVec.toNat_eq, BitVec.ofNat_eq_ofNat,
    BitVec.toNat_ofNat]
  omega

/-- Which words are illegal, by their numbers. -/
theorem isIllegal_decode_iff_toNat (w : Word) : isIllegal (decode w) = true ↔
    (0x8000 ≤ w.toNat ∧ w.toNat ≤ 0x8FFF) ∨ (0xD000 ≤ w.toNat ∧ w.toNat ≤ 0xDFFF) ∨
      (0xF000 ≤ w.toNat ∧ (w.toNat % 256 < 0x20 ∨ 0x25 < w.toNat % 256)) := by
  have hw := w.isLt
  simp only [isIllegal_decode, mem_definedVectors_iff, BitVec.toNat_eq, toNat_opcode, toNat_vect, BitVec.toNat_ofNat]
  omega

theorem exec_of_isIllegal {i : Instr} (hi : isIllegal i = true) (s : State) :
    ∃ t, exec i s = .next t ∧ faultedBy s t .illegalInstruction i := by
  cases i with
  | rti | res | trap => exact ⟨_, rfl, rfl, rfl⟩
  | _ => cases hi

/-- The instructions that raise IllegalInstruction in a running machine are the illegal ones. -/
theorem exec_illegalInstruction_iff {i : Instr} {s : State} (hrun : s.run = .running) :
    (∃ t, exec i s = .next t ∧ faultedBy s t .illegalInstruction i) ↔ isIllegal i = true := by
  refine ⟨fun ⟨t, hexec, ht, hrec⟩ => ?_, fun hi => exec_of_isIllegal hi s⟩
  obtain ⟨-, hfaulted, -⟩ := howAMachineStops i s t hrun hexec
  obtain ⟨kind, ⟨-, hrec'⟩, hkind, -⟩ := hfaulted ht
  exact hkind.1 (by simpa [hrec] using hrec'.symm)

/-- Settles O49: the step executes the fetched word's instruction, and the illegal words are known by number. -/
theorem illegalWordsExactly : Obligations.IllegalWordsExactly := by
  intro s hrun
  rw [← isIllegal_decode_iff_toNat, ← exec_illegalInstruction_iff (s := s.advance) hrun, step_of_running hrun]
  rfl

end Sys2Proof.Machine
end

section
/-! Effective addresses, and the instructions with a destination register, by their results (20_memory.md R32;
41_alu.md R80 to R84; 42_load_store.md R90, R92, R94, R96, R97). -/

namespace Sys2Proof.Machine

open Sys2Proof.Spec

/-- Settles O3: each address is a sum with a sign-extended field. -/
theorem effectiveAddressesWrap : Obligations.EffectiveAddressesWrap :=
  ⟨fun _ off => toNat_add_sext (by decide) _ off, fun _ off => toNat_add_sext (by decide) _ off,
    fun _ _ off => toNat_add_sext (by decide) _ off, fun _ _ => rfl⟩

theorem exec_addReg (dr sr1 : Reg) (ign : BitVec 2) (sr2 : Reg) (s : State) :
    exec (.addReg dr sr1 ign sr2) s = .next (s.writeResult dr (s.reg sr1 + s.reg sr2)) := rfl

theorem exec_andReg (dr sr1 : Reg) (ign : BitVec 2) (sr2 : Reg) (s : State) :
    exec (.andReg dr sr1 ign sr2) s = .next (s.writeResult dr (s.reg sr1 &&& s.reg sr2)) := rfl

theorem exec_andImm (dr sr1 : Reg) (imm : BitVec 5) (s : State) :
    exec (.andImm dr sr1 imm) s = .next (s.writeResult dr (s.reg sr1 &&& sext imm)) := rfl

theorem exec_not (dr sr : Reg) (ign : BitVec 6) (s : State) :
    exec (.not dr sr ign) s = .next (s.writeResult dr (~~~(s.reg sr))) := rfl

theorem exec_lea (dr : Reg) (off : BitVec 9) (s : State) :
    exec (.lea dr off) s = .next (s.writeResult dr (s.pcRel off)) := rfl

/-- An instruction that ends in `writeResult`: its value and its whole frame. -/
theorem exists_next_of_writeResult {i : Instr} {s : State} {dr : Reg} {v : Word}
    (h : exec i s = .next (s.writeResult dr v)) :
    ∃ t, exec i s = .next t ∧ t.reg dr = v ∧ resultOnly s t dr (t.reg dr) := by
  refine ⟨_, h, s.reg_writeResult_same dr v, ?_⟩
  rw [State.reg_writeResult_same]
  exact s.resultOnly_writeResult dr v

/-- A sign-extended field repeats its top bit. -/
theorem getLsbD_sext {n : Nat} (v : BitVec (n + 1)) {k : Nat} (hk : k < 16) :
    (sext v).getLsbD k = v.getLsbD (min k n) := by
  rw [sext, BitVec.getLsbD_signExtend, BitVec.msb_eq_getLsbD_last]
  by_cases h : k < n + 1
  · simp [hk, h, Nat.min_eq_left (Nat.le_of_lt_succ h)]
  · simp [hk, h, Nat.min_eq_right (by omega : n ≤ k)]

/-- Settles O4: the value written is the sum of the two words. -/
theorem addRegisterForm : Obligations.AddRegisterForm := by
  intro dr sr1 ign sr2 s
  obtain ⟨t, ht, hv, hframe⟩ := exists_next_of_writeResult (exec_addReg dr sr1 ign sr2 s)
  exact ⟨t, ht, by rw [hv, BitVec.toNat_add], hframe⟩

/-- Settles O6: the value written is the AND of two words, the second one sign-extended in the immediate form. -/
theorem andForms : Obligations.AndForms := by
  refine ⟨fun dr sr1 ign sr2 s => ?_, fun dr sr1 imm s => ?_⟩
  · obtain ⟨t, ht, hv, hframe⟩ := exists_next_of_writeResult (exec_andReg dr sr1 ign sr2 s)
    exact ⟨t, ht, fun k _ => by rw [hv, BitVec.getLsbD_and], hframe⟩
  · obtain ⟨t, ht, hv, hframe⟩ := exists_next_of_writeResult (exec_andImm dr sr1 imm s)
    exact ⟨t, ht, fun k hk => by rw [hv, BitVec.getLsbD_and, getLsbD_sext imm hk], hframe⟩

/-- Settles O7: the value written is the complement. -/
theorem notForm : Obligations.NotForm := by
  intro dr sr ign s
  obtain ⟨t, ht, hv, hframe⟩ := exists_next_of_writeResult (exec_not dr sr ign s)
  exact ⟨t, ht, by rw [hv, BitVec.toNat_not], hframe⟩

/-- Settles O9: the value written is the PC-relative address. -/
theorem leaWritesTheAddress : Obligations.LeaWritesTheAddress := by
  intro dr off s
  obtain ⟨t, ht, hv, hframe⟩ := exists_next_of_writeResult (exec_lea dr off s)
  exact ⟨t, ht, by rw [hv, State.pcRel, toNat_add_sext (by decide)], hframe⟩

/-- Settles O8: each load is a `writeResult` of the cell at its address. -/
theorem loadsWriteTheCellRead : Obligations.LoadsWriteTheCellRead :=
  ⟨fun dr _ s => ⟨_, rfl, s.resultOnly_writeResult dr _⟩, fun dr _ _ s => ⟨_, rfl, s.resultOnly_writeResult dr _⟩,
    fun dr _ s => ⟨_, rfl, s.resultOnly_writeResult dr _⟩⟩

end Sys2Proof.Machine
end

section
/-! The stores and the control transfers (42_load_store.md R91, R93, R95; 43_control.md R100 to R103). -/

namespace Sys2Proof.Machine

open Sys2Proof.Spec

/-- The whole frame of `store`. -/
theorem State.storeOnly_store (s : State) (a v : Word) : storeOnly s (s.store a v) a v :=
  ⟨Memory.read_write_same .., fun _ hb => Memory.read_write_ne _ v hb, rfl, rfl, fun _ _ => rfl, ⟨rfl, rfl⟩, ⟨rfl, rfl⟩⟩

/-- Settles O10: each store is a `store` at its address. -/
theorem storesWriteOneCell : Obligations.StoresWriteOneCell :=
  ⟨fun _ _ s => ⟨_, rfl, s.storeOnly_store _ _⟩, fun _ _ _ s => ⟨_, rfl, s.storeOnly_store _ _⟩,
    fun _ _ s => ⟨_, rfl, s.storeOnly_store _ _⟩⟩

/-- The whole frame of `setPc`. -/
theorem State.jumpOnly_setPc (s : State) (target : Word) : jumpOnly s (s.setPc target) [] target :=
  ⟨rfl, rfl, fun _ _ => rfl, fun _ => rfl, ⟨rfl, rfl⟩, ⟨rfl, rfl⟩⟩

/-- The whole frame of a call: `link`, then `setPc`. -/
theorem State.jumpOnly_link_setPc (s : State) (target : Word) : jumpOnly s (s.link.setPc target) [7] target :=
  ⟨rfl, rfl, regsKept_link (List.mem_singleton_self 7), fun _ => rfl, ⟨rfl, rfl⟩, ⟨rfl, rfl⟩⟩

/-- BR's test, flag by flag. -/
theorem State.condMet_eq (s : State) (n z p : Bool) :
    s.condMet n z p = ((n && s.cond.getLsbD 2) || (z && s.cond.getLsbD 1) || (p && s.cond.getLsbD 0)) := by
  rw [State.condMet]
  generalize s.cond = c
  revert n z p c
  decide

/-- Settles O11: BR writes the pc alone, and its test is that of the flags. -/
theorem branchTakenIffConditionMet : Obligations.BranchTakenIffConditionMet := by
  intro n z p off s
  rw [exec_br, s.condMet_eq]
  exact ⟨_, rfl, s.jumpOnly_setPc _⟩

/-- BRnzp's test holds of every one-hot COND. -/
theorem State.condMet_all {s : State} (h : s.condOneHot) : s.condMet true true true = true := by
  obtain e | e | e := h <;> simp [State.condMet_eq, e, condN, condZ, condP]

theorem State.condMet_none (s : State) : s.condMet false false false = false := by
  simp [State.condMet_eq]

/-- Settles O12: the two masks whose test does not depend on which flag is set. -/
theorem branchAlwaysAndNever : Obligations.BranchAlwaysAndNever := by
  refine ⟨fun off s h => ?_, fun off s => ?_⟩
  · rw [exec_br, if_pos (State.condMet_all h)]
  · rw [exec_br, s.condMet_none]
    rfl

/-- Settles O13: JMP is one `setPc`. -/
theorem jumpToRegister : Obligations.JumpToRegister :=
  fun _ _ _ s => ⟨_, rfl, s.jumpOnly_setPc _⟩

/-- Settles O14: JSR is a link, then one `setPc`. -/
theorem callPcRelative : Obligations.CallPcRelative :=
  fun _ s => ⟨_, rfl, s.reg_link_same, s.jumpOnly_link_setPc _⟩

theorem State.reg_link (s : State) (q : Reg) : s.link.reg q = if q = 7 then s.pc else s.reg q :=
  s.reg_setReg 7 q s.pc

/-- Settles O15: JSRR jumps to what the linked state holds in BaseR. -/
theorem callThroughRegister : Obligations.CallThroughRegister := by
  intro _ base _ s
  rw [← s.reg_link]
  exact ⟨_, rfl, s.reg_link_same, s.jumpOnly_link_setPc _⟩

end Sys2Proof.Machine
end

section
/-! The steps a trap routine is made of: the frame of the link, what a read and a write of bytes answer, and what they
leave (44_trap.md R110, R119 to R121). -/

namespace Sys2Proof.Machine

open Sys2Proof.Spec

/-- The state with the bytes `bs` written and the room they take given up. -/
def State.appendOut (s : State) (bs : List Byte) : State :=
  s.setOutput { bytes := s.output.bytes ++ bs, room := s.output.room.map (fun m => m - bs.length) }

theorem State.wrote_appendOut (s : State) (bs : List Byte) : wrote s (s.appendOut bs) bs := ⟨rfl, rfl⟩

@[simp] theorem State.appendOut_nil (s : State) : s.appendOut [] = s := by
  simp only [State.appendOut, List.append_nil, List.length_nil, Nat.sub_zero, Option.map_id']
  rfl

theorem State.appendOut_appendOut (s : State) (bs cs : List Byte) :
    (s.appendOut bs).appendOut cs = s.appendOut (bs ++ cs) := by
  simp [State.appendOut, Function.comp_def, Nat.sub_sub]

/-- What is left of the room once `bs` is written. -/
theorem accepts_appendOut {s : State} {bs : List Byte} {n : Nat} (h : accepts s.output (bs.length + n)) :
    accepts (s.appendOut bs).output n := by
  intro q hq
  obtain ⟨m, hm, rfl⟩ := Option.map_eq_some_iff.1 hq
  have := h m hm
  omega

theorem accepts_of_le {o : OutStream} {n n' : Nat} (h : accepts o n) (hn : n' ≤ n) : accepts o n' :=
  fun m hm => hn.trans (h m hm)

theorem accepts_of_room {o : OutStream} {n m : Nat} (h : o.room = some m) (hn : n ≤ m) : accepts o n := by
  intro q hq
  obtain rfl : m = q := Option.some.inj (h.symm.trans hq)
  exact hn

theorem accepts_of_endless {o : OutStream} (h : o.room = none) (n : Nat) : accepts o n := by
  intro m hm
  simp [h] at hm

theorem State.outBytes_of_accepts {s : State} {i : Instr} {bs : List Byte} {k : State → Result}
    (h : accepts s.output bs.length) : s.outBytes i bs k = k (s.appendOut bs) := by
  rw [State.outBytes, OutStream.put_of_fits h]
  rfl

theorem State.outBytes_of_overflow {s : State} {i : Instr} {bs : List Byte} {k : State → Result} {m : Nat}
    (h : s.output.room = some m) (hm : m < bs.length) :
    s.outBytes i bs k = .next ((s.appendOut (bs.take m)).raise .ioFailure i) := by
  have hroom : s.output.room.map (fun q => q - (bs.take m).length) = some 0 := by
    simp [h, List.length_take, Nat.min_eq_left hm.le]
  rw [State.outBytes, OutStream.put_of_overflow h hm, State.appendOut, hroom]

theorem State.inByte_of_byte {s : State} {i : Instr} {k : Byte → State → Result} {c : Byte} {rest : InStream}
    (h : s.input.next = .byte c rest) : s.inByte i k = k c (s.setInput rest) := by
  rw [State.inByte, h]

theorem State.inByte_of_failed {s : State} {i : Instr} {k : Byte → State → Result} (h : s.input.next = .failed) :
    s.inByte i k = .next (s.raise .ioFailure i) := by
  rw [State.inByte, h]

theorem State.inByte_of_waiting {s : State} {i : Instr} {k : Byte → State → Result} (h : s.input.next = .waiting) :
    s.inByte i k = .fault .inputWait := by
  rw [State.inByte, h]

/-- The link, the first action of every TRAP, meets the frame; stream updates, faults and the halt do not touch it. -/
theorem State.trapFrame_link (s : State) : trapFrame s s.link [] :=
  ⟨s.reg_link_same, regsKept_link (List.mem_singleton_self 7), rfl, fun _ => rfl⟩

theorem trapFrame_storeChar {s t : State} (h : trapFrame s t []) (c : Byte) : trapFrame s (t.storeChar c) [0] := by
  obtain ⟨hlink, hregs, hpc, hmem⟩ := h
  refine ⟨(t.reg_storeChar_ne c (by decide)).trans hlink, fun q hq => ?_, hpc, hmem⟩
  have hq7 : q ∉ [7] := fun e => hq (List.mem_cons.2 (.inl (List.mem_singleton.1 e)))
  have hq0 : q ≠ 0 := fun e => hq (by simp [e])
  exact (t.reg_storeChar_ne c hq0).trans (hregs q hq7)

theorem toNat_zext8 (c : Byte) : (zext8 c).toNat = c.toNat := by
  have := c.isLt
  rw [zext8, BitVec.toNat_setWidth]
  omega

/-- GETC and IN leave the character in R0 and its code in COND. -/
theorem State.storeChar_result (s : State) (c : Byte) :
    ((s.storeChar c).reg 0).toNat = c.toNat ∧ (s.storeChar c).cond = cc ((s.storeChar c).reg 0) := by
  rw [State.reg_storeChar_same, ← condOf_eq_cc]
  exact ⟨toNat_zext8 c, rfl⟩

theorem lowByte_eq_ofNat (v : Word) : lowByte v = BitVec.ofNat 8 (v.toNat % 256) := by
  apply BitVec.eq_of_toNat_eq
  rw [lowByte, toNat_vect, BitVec.toNat_ofNat]
  omega

/-- Settles O27: the write that overflows answers at once, whatever was to follow. -/
theorem outputFailureEndsTheRoutine : Obligations.OutputFailureEndsTheRoutine :=
  fun _ _ _ _ _ hroom hm =>
    ⟨_, State.outBytes_of_overflow hroom hm, State.wrote_appendOut _ _, ⟨rfl, rfl⟩, rfl, rfl, rfl, rfl, rfl⟩

end Sys2Proof.Machine
end

section
/-! The character routines, HALT, and the faulting instructions (44_trap.md R112, R113, R115, R117, R118;
45_reserved.md R130, R131). -/

namespace Sys2Proof.Machine

open Sys2Proof.Spec

theorem exec_getc (ign : BitVec 4) (s : State) :
    exec (.getc ign) s = s.link.inByte (.getc ign) (fun c s => .next (s.storeChar c)) := rfl

theorem exec_out (ign : BitVec 4) (s : State) :
    exec (.out ign) s = s.link.outBytes (.out ign) [lowByte (s.reg 0)] .next := rfl

theorem exec_halt (ign : BitVec 4) (s : State) :
    exec (.halt ign) s = s.link.outBytes (.halt ign) Config.haltNotice (fun s => .next s.halt) := rfl

/-- Settles O16: the read gives its byte, and the routine stores it. -/
theorem getcStoresTheByte : Obligations.GetcStoresTheByte := by
  intro ign s c rest hin
  obtain ⟨hr0, hcond⟩ := (s.link.setInput rest).storeChar_result c
  rw [exec_getc, State.inByte_of_byte (s := s.link) hin]
  exact ⟨_, rfl, trapFrame_storeChar s.trapFrame_link c, hr0, hcond, rfl, rfl, ⟨rfl, rfl⟩⟩

/-- IN once its prompt is out. -/
theorem exec_inChar_of_accepts {s : State} (ign : BitVec 4) (h : accepts s.output Config.inPrompt.length) :
    exec (.inChar ign) s = (s.link.appendOut Config.inPrompt).inByte (.inChar ign) (fun c s =>
      s.outBytes (.inChar ign) [c] (fun s => .next (s.storeChar c))) := by
  rw [exec, execIn, State.outBytes_of_accepts (s := s.link) h]

/-- Settles O17: the prompt, the read and the echo answer in turn, and the routine stores the byte. -/
theorem inPromptsReadsAndEchoes : Obligations.InPromptsReadsAndEchoes := by
  intro ign s c rest hin hroom
  have hecho : accepts (s.link.appendOut Config.inPrompt).output 1 := accepts_appendOut (s := s.link) hroom
  have hexec : exec (.inChar ign) s =
      .next ((((s.link.appendOut Config.inPrompt).setInput rest).appendOut [c]).storeChar c) := by
    rw [exec_inChar_of_accepts ign (accepts_of_le hroom (Nat.le_succ _)),
      State.inByte_of_byte (s := s.link.appendOut _) hin, State.outBytes_of_accepts hecho]
  have hwrote : wrote s ((s.link.appendOut Config.inPrompt).appendOut [c]) (Config.inPrompt ++ [c]) := by
    rw [State.appendOut_appendOut]
    exact s.link.wrote_appendOut _
  obtain ⟨hr0, hcond⟩ := (((s.link.appendOut Config.inPrompt).setInput rest).appendOut [c]).storeChar_result c
  exact ⟨_, hexec, trapFrame_storeChar s.trapFrame_link c, hr0, hcond, rfl, hwrote, ⟨rfl, rfl⟩⟩

/-- Settles O18: the prompt takes all the room, so the echo overflows with no byte out. -/
theorem inEchoFailure : Obligations.InEchoFailure := by
  intro ign s c rest hin hroom
  have hprompt : accepts s.output Config.inPrompt.length := accepts_of_room hroom le_rfl
  have hnone : ((s.link.appendOut Config.inPrompt).setInput rest).output.room = some 0 := by
    simp [State.appendOut, hroom]
  have hexec : exec (.inChar ign) s =
      .next (((s.link.appendOut Config.inPrompt).setInput rest).raise .ioFailure (.inChar ign)) := by
    rw [exec_inChar_of_accepts ign hprompt, State.inByte_of_byte (s := s.link.appendOut _) hin,
      State.outBytes_of_overflow (m := 0) hnone (by simp), List.take_zero, State.appendOut_nil]
  exact ⟨_, hexec, s.trapFrame_link, rfl, rfl, s.link.wrote_appendOut _, ⟨rfl, rfl⟩⟩

/-- Settles O19: the read fails from the linked state in GETC, and once the prompt is out in IN. -/
theorem inputFailureFaults : Obligations.InputFailureFaults := by
  refine ⟨fun ign s hin => ?_, fun ign s hin hroom => ?_⟩
  · rw [exec_getc, State.inByte_of_failed (s := s.link) hin]
    exact ⟨_, rfl, s.trapFrame_link, rfl, ⟨rfl, rfl⟩, ⟨rfl, rfl⟩⟩
  · rw [exec_inChar_of_accepts ign hroom, State.inByte_of_failed (s := s.link.appendOut _) hin]
    exact ⟨_, rfl, s.trapFrame_link, rfl, rfl, s.link.wrote_appendOut _, ⟨rfl, rfl⟩⟩

/-- Settles O20: the read waits. -/
theorem silentInputNeverCompletes : Obligations.SilentInputNeverCompletes := by
  refine ⟨fun ign s hin => ?_, fun ign s hin hroom => ?_⟩
  · rw [exec_getc, State.inByte_of_waiting (s := s.link) hin]
  · rw [exec_inChar_of_accepts ign hroom, State.inByte_of_waiting (s := s.link.appendOut _) hin]

/-- Settles O21: one byte, which overflows exactly when the room is 0. -/
theorem outWritesTheLowByte : Obligations.OutWritesTheLowByte := by
  intro ign s
  by_cases hroom : s.output.room = some 0
  · have hexec : exec (.out ign) s = .next (s.link.raise .ioFailure (.out ign)) := by
      rw [exec_out, State.outBytes_of_overflow (s := s.link) hroom (by simp), List.take_zero, State.appendOut_nil]
    exact ⟨_, hexec, s.trapFrame_link, rfl, rfl, fun h => absurd hroom h, fun _ => ⟨rfl, ⟨rfl, rfl⟩⟩⟩
  · have hfits : accepts s.output 1 := fun m hm => Nat.pos_of_ne_zero fun e => hroom (e ▸ hm)
    rw [exec_out, State.outBytes_of_accepts (s := s.link) (bs := [_]) hfits, ← lowByte_eq_ofNat]
    exact ⟨_, rfl, s.trapFrame_link, rfl, rfl,
      fun _ => ⟨s.link.wrote_appendOut _, ⟨rfl, rfl⟩⟩, fun h => absurd h hroom⟩

/-- Settles O26: the notice fits and the machine halts, or it overflows. -/
theorem haltStopsTheMachine : Obligations.HaltStopsTheMachine := by
  intro ign s
  have hhalts (h : accepts s.output Config.haltNotice.length) :
      exec (.halt ign) s = .next (s.link.appendOut Config.haltNotice).halt := by
    rw [exec_halt, State.outBytes_of_accepts (s := s.link) h]
  cases hroom : s.output.room with
  | none =>
    have hfits : accepts s.output Config.haltNotice.length := accepts_of_endless hroom _
    exact ⟨_, hhalts hfits, s.trapFrame_link, rfl, rfl, s.link.wrote_appendOut _, rfl, rfl⟩
  | some m =>
    by_cases hm : Config.haltNotice.length ≤ m
    · have hfits : accepts s.output Config.haltNotice.length := accepts_of_room hroom hm
      simp only [if_pos hm]
      exact ⟨_, hhalts hfits, s.trapFrame_link, rfl, rfl, s.link.wrote_appendOut _, rfl, rfl⟩
    · rw [exec_halt, State.outBytes_of_overflow (s := s.link) hroom (Nat.lt_of_not_le hm)]
      simp only [if_neg hm]
      exact ⟨_, rfl, s.trapFrame_link, rfl, rfl,
        s.link.wrote_appendOut _, ⟨rfl, rfl⟩⟩

/-- Settles O28: the link, then the fault. -/
theorem undefinedVectorFaults : Obligations.UndefinedVectorFaults :=
  fun _ _ s => ⟨_, rfl, s.trapFrame_link, rfl, ⟨rfl, rfl⟩, ⟨rfl, rfl⟩⟩

/-- The whole frame of a fault. -/
theorem State.raise_frame (s : State) (k : FaultKind) (i : Instr) : regsKept s (s.raise k i) [] ∧
    (s.raise k i).pc = s.pc ∧ (s.raise k i).cond = s.cond ∧ memKept s (s.raise k i) ∧ streamsKept s (s.raise k i) ∧
    faultedBy s (s.raise k i) k i :=
  ⟨fun _ _ => rfl, rfl, rfl, fun _ => rfl, ⟨rfl, rfl⟩, ⟨rfl, rfl⟩⟩

/-- Settles O29: the two opcodes are a fault and nothing else. -/
theorem illegalOpcodesFault : Obligations.IllegalOpcodesFault :=
  ⟨fun _ s => ⟨_, rfl, s.raise_frame _ _⟩, fun _ s => ⟨_, rfl, s.raise_frame _ _⟩⟩

end Sys2Proof.Machine
end

section
/-! The unpacked string: the walk of PUTS, its end, and its failure (44_trap.md R114, R120). -/

namespace Sys2Proof.Machine

open Sys2Proof.Spec

theorem lowByte_eq_setWidth (v : Word) : lowByte v = v.setWidth 8 :=
  (BitVec.setWidth_eq_extractLsb' (by decide)).symm

theorem exec_puts (ign : BitVec 4) (s : State) :
    exec (.puts ign) s = putsLoop (.puts ign) s.walkFuel (s.reg 0) s.link := rfl

theorem putsLoop_of_zero {i : Instr} {fuel : Nat} {a : Word} {s : State} (h : s.mem.read a = 0) :
    putsLoop i (fuel + 1) a s = .next s := by
  rw [putsLoop, if_pos h]

theorem putsLoop_of_full {i : Instr} {fuel : Nat} {a : Word} {s : State} (h : s.mem.read a ≠ 0)
    (hroom : s.output.room = some 0) : putsLoop i (fuel + 1) a s = .next (s.raise .ioFailure i) := by
  rw [putsLoop, if_neg h, State.outBytes_of_overflow (m := 0) hroom (by simp), List.take_zero, State.appendOut_nil]

/-- PUTS once it has written the characters of `n` cells. -/
theorem exec_puts_walk {s : State} {n fuel : Nat} (ign : BitVec 4) (hfuel : s.walkFuel = n + fuel)
    (h : ∀ j < n, s.mem.read (s.reg 0 + BitVec.ofNat 16 j) ≠ 0) (hroom : accepts s.output n) :
    exec (.puts ign) s = putsLoop (.puts ign) fuel (s.reg 0 + BitVec.ofNat 16 n)
      (s.link.appendOut ((List.range n).map (putsChar s))) := by
  have hchars : putsChar s = fun j => lowByte (s.mem.read (s.reg 0 + BitVec.ofNat 16 j)) :=
    funext fun j => (lowByte_eq_setWidth _).symm
  rw [exec_puts, hfuel, putsLoop_walk _ n (s.reg 0) s.link fuel h hroom, State.appendOut, hchars, List.length_map,
    List.length_range]
  rfl

/-- A walk of cells before the first zero one is shorter than the address space. -/
theorem lt_of_first_zero {m : Memory} {a : Word} {n : Nat} (h : ∀ j < n, m.read (a + BitVec.ofNat 16 j) ≠ 0)
    (hz : m.read (a + BitVec.ofNat 16 n) = 0) : n < Config.ncell := by
  by_contra hn
  have hlt : n % 65536 < n := (Nat.mod_lt n (by decide)).trans_le (Nat.le_of_not_lt hn)
  have hsame : BitVec.ofNat 16 (n % 65536) = BitVec.ofNat 16 n := BitVec.eq_of_toNat_eq (by simp)
  exact h _ hlt (hsame ▸ hz)

/-- Settles O22: the walk writes the `n` characters and meets the zero cell with fuel left. -/
theorem putsWritesTheString : Obligations.PutsWritesTheString := by
  intro ign s n h hz hroom
  have hn := lt_of_first_zero h hz
  obtain ⟨fuel, hfuel⟩ : ∃ fuel, s.walkFuel = n + (fuel + 1) := ⟨s.walkFuel - (n + 1), by unfold State.walkFuel; omega⟩
  rw [exec_puts_walk ign hfuel h hroom, putsLoop_of_zero (s := s.link.appendOut _) hz]
  exact ⟨_, rfl, s.trapFrame_link, rfl, rfl, s.link.wrote_appendOut _, ⟨rfl, rfl⟩⟩

/-- PUTS where the room ends inside the string. -/
theorem puts_fails {s : State} {m : Nat} (ign : BitVec 4) (hroom : s.output.room = some m)
    (h : ∀ j ≤ m, s.mem.read (s.reg 0 + BitVec.ofNat 16 j) ≠ 0) : exec (.puts ign) s =
      .next ((s.link.appendOut ((List.range m).map (putsChar s))).raise .ioFailure (.puts ign)) := by
  have hfuel : s.walkFuel = m + (65535 + 1) := by simp [State.walkFuel, hroom, Config.ncell, Nat.add_comm]
  have hfits : accepts s.output m := accepts_of_room hroom le_rfl
  rw [exec_puts_walk ign hfuel (fun j hj => h j hj.le) hfits]
  exact putsLoop_of_full (h m le_rfl) (by simp [State.appendOut, hroom])

end Sys2Proof.Machine
end

section
/-! The packed string: the walk of PUTSP, its end, and its failure (44_trap.md R116, R120). -/

namespace Sys2Proof.Machine

open Sys2Proof.Spec

theorem putspByte_even (s : State) (q : Nat) :
    putspByte s (2 * q) = lowByte (s.mem.read (s.reg 0 + BitVec.ofNat 16 q)) := by
  simp [putspByte, lowByte_eq_setWidth]

theorem putspByte_odd (s : State) (q : Nat) :
    putspByte s (2 * q + 1) = highByte (s.mem.read (s.reg 0 + BitVec.ofNat 16 q)) := by
  have hhalf : (2 * q + 1) / 2 = q := by omega
  rw [putspByte, if_neg (by omega), hhalf, BitVec.setWidth_ushiftRight_eq_extractLsb, highByte]

theorem exec_putsp (ign : BitVec 4) (s : State) :
    exec (.putsp ign) s = putspLoop (.putsp ign) s.walkFuel (s.reg 0) s.link := rfl

section
variable {i : Instr} {fuel : Nat} {a : Word} {s : State}

theorem putspLoop_of_low_zero (h : lowByte (s.mem.read a) = 0) : putspLoop i (fuel + 1) a s = .next s := by
  rw [putspLoop, if_pos h]

theorem putspLoop_of_high_zero (hlow : lowByte (s.mem.read a) ≠ 0) (h : highByte (s.mem.read a) = 0)
    (hroom : accepts s.output 1) :
    putspLoop i (fuel + 1) a s = .next (s.appendOut [lowByte (s.mem.read a)]) := by
  rw [putspLoop, if_neg hlow, State.outBytes_of_accepts (bs := [_]) hroom]
  exact if_pos h

theorem putspLoop_of_full (hlow : lowByte (s.mem.read a) ≠ 0) (hroom : s.output.room = some 0) :
    putspLoop i (fuel + 1) a s = .next (s.raise .ioFailure i) := by
  rw [putspLoop, if_neg hlow, State.outBytes_of_overflow (m := 0) hroom (by simp), List.take_zero, State.appendOut_nil]

theorem putspLoop_of_room_one (hlow : lowByte (s.mem.read a) ≠ 0) (h : highByte (s.mem.read a) ≠ 0)
    (hroom : s.output.room = some 1) : putspLoop i (fuel + 1) a s =
      .next ((s.appendOut [lowByte (s.mem.read a)]).raise .ioFailure i) := by
  have hfits : accepts s.output 1 := accepts_of_room hroom le_rfl
  have hfull : (s.appendOut [lowByte (s.mem.read a)]).output.room = some 0 := by simp [State.appendOut, hroom]
  rw [putspLoop, if_neg hlow, State.outBytes_of_accepts (bs := [_]) hfits]
  refine (if_neg h).trans ?_
  rw [State.outBytes_of_overflow (m := 0) hfull (by simp), List.take_zero, State.appendOut_nil]

end

/-- Two bytes a cell, in order, are the bytes by number. -/
theorem flatMap_pairs {α : Type} (f : Nat → α) (q : Nat) :
    (List.range q).flatMap (fun j => [f (2 * j), f (2 * j + 1)]) = (List.range (2 * q)).map f := by
  induction q with
  | zero => rfl
  | succ q ih =>
    rw [List.range_succ, List.flatMap_append, ih, show 2 * (q + 1) = 2 * q + 1 + 1 by omega, List.range_succ,
      List.range_succ]
    simp

/-- PUTSP once it has written the bytes of `q` whole cells. -/
theorem exec_putsp_walk {s : State} {q fuel : Nat} (ign : BitVec 4) (hfuel : s.walkFuel = q + fuel)
    (h : ∀ j < 2 * q, putspByte s j ≠ 0) (hroom : accepts s.output (2 * q)) :
    exec (.putsp ign) s = putspLoop (.putsp ign) fuel (s.reg 0 + BitVec.ofNat 16 q)
      (s.link.appendOut ((List.range (2 * q)).map (putspByte s))) := by
  have hcells (j : Nat) (hj : j < q) : lowByte (s.mem.read (s.reg 0 + BitVec.ofNat 16 j)) ≠ 0 ∧
      highByte (s.mem.read (s.reg 0 + BitVec.ofNat 16 j)) ≠ 0 :=
    ⟨putspByte_even s j ▸ h (2 * j) (by omega), putspByte_odd s j ▸ h (2 * j + 1) (by omega)⟩
  have hlength : ((List.range (2 * q)).map (putspByte s)).length = 2 * q := by simp
  rw [exec_putsp, hfuel, putspLoop_walk _ q (s.reg 0) s.link fuel hcells hroom, State.appendOut, hlength,
    ← flatMap_pairs]
  simp only [putspByte_even, putspByte_odd]
  rfl

theorem putspByte_mod (s : State) (n : Nat) : putspByte s (n % 131072) = putspByte s n := by
  have hparity : n % 131072 % 2 = n % 2 := by omega
  have hcell : BitVec.ofNat 16 (n % 131072 / 2) = BitVec.ofNat 16 (n / 2) :=
    BitVec.eq_of_toNat_eq (by simp only [BitVec.toNat_ofNat]; omega)
  rw [putspByte, putspByte, hparity, hcell]

/-- A walk of bytes before the first zero one is shorter than two bytes a cell of the address space. -/
theorem lt_of_first_zero_byte {s : State} {n : Nat} (h : ∀ j < n, putspByte s j ≠ 0) (hz : putspByte s n = 0) :
    n < 131072 := by
  by_contra hn
  have hlt : n % 131072 < n := (Nat.mod_lt n (by decide)).trans_le (Nat.le_of_not_lt hn)
  exact h _ hlt (putspByte_mod s n ▸ hz)

/-- The bytes up to and with the low byte of cell `q`. -/
theorem appendOut_range_succ (u s : State) (q : Nat) :
    (u.appendOut ((List.range (2 * q)).map (putspByte s))).appendOut
      [lowByte (s.mem.read (s.reg 0 + BitVec.ofNat 16 q))] =
    u.appendOut ((List.range (2 * q + 1)).map (putspByte s)) := by
  rw [State.appendOut_appendOut, List.range_succ, List.map_append, List.map_singleton, putspByte_even]

/-- Settles O23: the walk writes the whole cells; the zero byte is the low or the high one of the cell it then meets. -/
theorem putspWritesThePackedString : Obligations.PutspWritesThePackedString := by
  intro ign s n h hz hroom
  have hn := lt_of_first_zero_byte h hz
  suffices hexec : exec (.putsp ign) s = .next (s.link.appendOut ((List.range n).map (putspByte s))) from
    ⟨_, hexec, s.trapFrame_link, rfl, rfl, s.link.wrote_appendOut _, ⟨rfl, rfl⟩⟩
  obtain ⟨q, rfl | rfl⟩ := Nat.even_or_odd' n
  all_goals
    obtain ⟨fuel, hfuel⟩ : ∃ fuel, s.walkFuel = q + (fuel + 1) :=
      ⟨s.walkFuel - (q + 1), by unfold State.walkFuel Config.ncell; omega⟩
    rw [exec_putsp_walk ign hfuel (fun j hj => h j (by omega)) (accepts_of_le hroom (by omega))]
  · rw [putspByte_even] at hz
    exact putspLoop_of_low_zero hz
  · have hlow := h (2 * q) (by omega)
    rw [putspByte_even] at hlow
    rw [putspByte_odd] at hz
    have hfits : accepts (s.link.appendOut ((List.range (2 * q)).map (putspByte s))).output 1 :=
      accepts_appendOut (s := s.link) (by simpa using hroom)
    rw [← appendOut_range_succ]
    exact putspLoop_of_high_zero hlow hz hfits

/-- PUTSP where the room ends inside the string: before the low byte of the cell, or before its high byte. -/
theorem putsp_fails {s : State} {m : Nat} (ign : BitVec 4) (hroom : s.output.room = some m)
    (h : ∀ j ≤ m, putspByte s j ≠ 0) : exec (.putsp ign) s =
      .next ((s.link.appendOut ((List.range m).map (putspByte s))).raise .ioFailure (.putsp ign)) := by
  have hfits (k : Nat) (hk : k ≤ m) : accepts s.output k := accepts_of_room hroom hk
  have hleft (q : Nat) : (s.link.appendOut ((List.range (2 * q)).map (putspByte s))).output.room =
      some (m - 2 * q) := by simp [State.appendOut, hroom]
  obtain ⟨q, rfl | rfl⟩ := Nat.even_or_odd' m
  all_goals
    obtain ⟨fuel, hfuel⟩ : ∃ fuel, s.walkFuel = q + (fuel + 1) :=
      ⟨s.walkFuel - (q + 1), by simp only [State.walkFuel, Config.ncell, hroom, Option.getD_some]; omega⟩
    rw [exec_putsp_walk ign hfuel (fun j hj => h j (by omega)) (hfits _ (by omega))]
    have hlow := h (2 * q) (by omega)
    rw [putspByte_even] at hlow
  · exact putspLoop_of_full hlow (by rw [hleft, Nat.sub_self])
  · have hhigh := h (2 * q + 1) le_rfl
    rw [putspByte_odd] at hhigh
    rw [← appendOut_range_succ]
    exact putspLoop_of_room_one hlow hhigh (by rw [hleft, Nat.add_sub_cancel_left])

/-- Settles O24: both failing walks, with their frames. -/
theorem stringOutputFailure : Obligations.StringOutputFailure :=
  ⟨fun ign s _ hroom h =>
      ⟨_, puts_fails ign hroom h, s.trapFrame_link, rfl, rfl, s.link.wrote_appendOut _, ⟨rfl, rfl⟩⟩,
    fun ign s _ hroom h =>
      ⟨_, putsp_fails ign hroom h, s.trapFrame_link, rfl, rfl, s.link.wrote_appendOut _, ⟨rfl, rfl⟩⟩⟩

end Sys2Proof.Machine
end

section
/-! The cycles that do not complete (44_trap.md R119; 70_reset_and_hazards.md R169, R170). -/

namespace Sys2Proof.Machine

open Sys2Proof.Spec

/-- A string routine that completes at the first end of the string and faults where the room ends before it is endless
only with no end and no failure. `going j` says that the `j`-th character does not end the string. -/
theorem endless_of_fault {r : Result} {o : OutStream} {going : Nat → Prop}
    (hdone : ∀ n, (∀ j < n, going j) → ¬ going n → accepts o n → ∃ t, r = .next t)
    (hfails : ∀ m, o.room = some m → (∀ j ≤ m, going j) → ∃ t, r = .next t) (hr : r = .fault .stringNeverEnds) :
    o.room = none ∧ ∀ n, going n := by
  classical
  have hnext : ¬ ∃ t, r = .next t := fun ⟨t, ht⟩ => by simp [hr] at ht
  have hstops (n : Nat) (hn : ¬ going n) (hroom : accepts o n) : False := by
    have hex : ∃ n, ¬ going n := ⟨n, hn⟩
    exact hnext (hdone (Nat.find hex) (fun j hj => not_not.1 (Nat.find_min hex hj)) (Nat.find_spec hex)
      (accepts_of_le hroom (Nat.find_min' hex hn)))
  have hnone : o.room = none := by
    refine Option.eq_none_iff_forall_ne_some.2 fun m hm => hnext (hfails m hm fun j hj => ?_)
    by_contra hgoing
    exact hstops j hgoing (accepts_of_room hm hj)
  exact ⟨hnone, fun n => by_contra fun hn => hstops n hn (accepts_of_endless hnone n)⟩

/-- The walk from any cell visits every cell. -/
theorem exists_index (base a : Word) : ∃ j, base + BitVec.ofNat 16 j = a :=
  ⟨(a - base).toNat, by rw [BitVec.ofNat_toNat, BitVec.setWidth_eq, add_sub_cancel]⟩

theorem puts_endless_iff (ign : BitVec 4) (s : State) : exec (.puts ign) s = .fault .stringNeverEnds ↔
    s.output.room = none ∧ ∀ a : Word, s.mem.read a ≠ 0 := by
  constructor
  · intro hr
    obtain ⟨hnone, hgoing⟩ := endless_of_fault
      (going := fun j => s.mem.read (s.reg 0 + BitVec.ofNat 16 j) ≠ 0)
      (fun n h hz hroom => (putsWritesTheString ign s n h (not_not.1 hz) hroom).imp fun _ ht => ht.1)
      (fun m hroom h => ⟨_, puts_fails ign hroom h⟩) hr
    refine ⟨hnone, fun a => ?_⟩
    obtain ⟨j, rfl⟩ := exists_index (s.reg 0) a
    exact hgoing j
  · rintro ⟨hnone, h⟩
    have hfuel : s.walkFuel = 65536 + 0 := by simp [State.walkFuel, hnone, Config.ncell]
    rw [exec_puts_walk ign hfuel (fun _ _ => h _) (accepts_of_endless hnone _)]
    rfl

theorem lowByte_ne_zero_iff (v : Word) : lowByte v ≠ 0 ↔ v.toNat % 256 ≠ 0 := by
  rw [Ne, BitVec.toNat_eq, lowByte, toNat_vect]
  rfl

theorem highByte_ne_zero_iff (v : Word) : highByte v ≠ 0 ↔ v.toNat / 256 ≠ 0 := by
  have hv := v.isLt
  rw [Ne, BitVec.toNat_eq, highByte, BitVec.extractLsb'_toNat, Nat.shiftRight_eq_div_pow]
  simp only [BitVec.ofNat_eq_ofNat, BitVec.toNat_ofNat]
  omega

theorem putsp_endless_iff (ign : BitVec 4) (s : State) : exec (.putsp ign) s = .fault .stringNeverEnds ↔
    s.output.room = none ∧ ∀ a : Word, (s.mem.read a).toNat % 256 ≠ 0 ∧ (s.mem.read a).toNat / 256 ≠ 0 := by
  simp only [← lowByte_ne_zero_iff, ← highByte_ne_zero_iff]
  constructor
  · intro hr
    obtain ⟨hnone, hgoing⟩ := endless_of_fault (going := fun j => putspByte s j ≠ 0)
      (fun n h hz hroom => (putspWritesThePackedString ign s n h (not_not.1 hz) hroom).imp fun _ ht => ht.1)
      (fun m hroom h => ⟨_, putsp_fails ign hroom h⟩) hr
    refine ⟨hnone, fun a => ?_⟩
    obtain ⟨j, rfl⟩ := exists_index (s.reg 0) a
    exact ⟨putspByte_even s j ▸ hgoing (2 * j), putspByte_odd s j ▸ hgoing (2 * j + 1)⟩
  · rintro ⟨hnone, h⟩
    have hfuel : s.walkFuel = 65536 + 0 := by simp [State.walkFuel, hnone, Config.ncell]
    have hbytes (j : Nat) : putspByte s j ≠ 0 := by
      obtain ⟨q, rfl | rfl⟩ := Nat.even_or_odd' j
      · exact putspByte_even s q ▸ (h _).1
      · exact putspByte_odd s q ▸ (h _).2
    rw [exec_putsp_walk ign hfuel (fun j _ => hbytes j) (accepts_of_endless hnone _)]
    rfl

/-- Settles O25: both routines, the one by cells and the other by bytes. -/
theorem stringRoutinesNeverEndExactly : Obligations.StringRoutinesNeverEndExactly :=
  ⟨puts_endless_iff, putsp_endless_iff⟩

theorem exec_ne_refused (i : Instr) (s : State) (r : Refusal) : exec i s ≠ .refused r := by
  intro h
  have hans := exec_answer i s
  rw [h] at hans
  cases hans

/-- The two reasons an instruction can have no next state. -/
theorem exec_fault_cases {i : Instr} {s : State} {f : Fault} (h : exec i s = .fault f) :
    (f = .inputWait ∧ readsInput i = true ∧ s.input.next = .waiting) ∨
    (f = .stringNeverEnds ∧ s.output.room = none ∧ (∀ a : Word, s.mem.read a ≠ 0) ∧
      ∃ ign, i = .puts ign ∨ i = .putsp ign) := by
  have hans := exec_answer i s
  rw [h] at hans
  cases hans with
  | waits hi hin => exact .inl ⟨rfl, hi, hin⟩
  | endless hi =>
    have hi' := hi
    obtain ⟨ign, rfl | rfl⟩ := hi
    · obtain ⟨hnone, hcells⟩ := (puts_endless_iff ign s).1 h
      exact .inr ⟨rfl, hnone, hcells, hi'⟩
    · obtain ⟨hnone, hbytes⟩ := (putsp_endless_iff ign s).1 h
      exact .inr ⟨rfl, hnone, fun a e => (hbytes a).1 (by simp [e]), hi'⟩

/-- Settles O42: a step is refused or faults only as its instruction does, or because the machine is stopped. -/
theorem onlyWaitsAndEndlessStringsDoNotComplete : Obligations.OnlyWaitsAndEndlessStringsDoNotComplete := by
  refine ⟨fun s r h => ?_, fun s f hrun h => ?_⟩
  · cases hrun : s.run with
    | running => exact exec_ne_refused _ _ r (step_of_running hrun ▸ h)
    | halted | faulted => simp [step, hrun] at h
  · exact exec_fault_cases (s := s.advance) (step_of_running hrun ▸ h)

/-- Settles O41: neither of the two ways not to complete is open. -/
theorem runningMachineCompletesTheCycle : Obligations.RunningMachineCompletesTheCycle := by
  intro s hrun hin ⟨a, ha⟩
  obtain ⟨hrefused, hfault⟩ := onlyWaitsAndEndlessStringsDoNotComplete
  cases h : step s with
  | next t => exact ⟨t, rfl⟩
  | refused r => exact absurd h (hrefused s r)
  | fault f =>
    obtain ⟨-, -, hwait⟩ | ⟨-, -, hcells, -⟩ := hfault s f hrun h
    · exact absurd hwait hin
    · exact absurd ha (hcells a)

end Sys2Proof.Machine
end

section
/-! Two runs of an instruction side by side: what two related states make of the same routine steps, and from it what
does not matter to an instruction (10_state.md R11, R15; 30_encoding.md R57). -/

namespace Sys2Proof.Machine

open Sys2Proof.Spec

/-- The same outcome, up to `R` between the next states. -/
inductive SameOutcome (R : State → State → Prop) : Result → Result → Prop
  | next {s t : State} (h : R s t) : SameOutcome R (.next s) (.next t)
  | fault (f : Fault) : SameOutcome R (.fault f) (.fault f)

theorem SameOutcome.mapNext_eq {f : State → State} {r r' : Result} (h : SameOutcome (fun s t => f s = f t) r r') :
    mapNext f r = mapNext f r' := by
  cases h with
  | next h => exact congrArg Host.Outcome.next h
  | fault => rfl

theorem SameOutcome.eq_mapNext {f : State → State} {r r' : Result} (h : SameOutcome (fun s t => t = f s) r r') :
    r' = mapNext f r := by
  cases h with
  | next h => exact congrArg Host.Outcome.next h
  | fault => rfl

/-- Related states hold the same memory and streams, and stay related when the streams change or instructions `i` and
`j` fault. -/
structure StreamRel (R : State → State → Prop) (i j : Instr) : Prop where
  mem {s t : State} (h : R s t) : t.mem = s.mem
  input {s t : State} (h : R s t) : t.input = s.input
  output {s t : State} (h : R s t) : t.output = s.output
  setInput {s t : State} (h : R s t) (x : InStream) : R (s.setInput x) (t.setInput x)
  setOutput {s t : State} (h : R s t) (o : OutStream) : R (s.setOutput o) (t.setOutput o)
  raise {s t : State} (h : R s t) (k : FaultKind) : R (s.raise k i) (t.raise k j)

section
variable {R : State → State → Prop} {i j : Instr} {s t : State}

theorem StreamRel.inByte (hR : StreamRel R i j) {k k' : Byte → State → Result}
    (hk : ∀ c s t, R s t → SameOutcome R (k c s) (k' c t)) (h : R s t) :
    SameOutcome R (s.inByte i k) (t.inByte j k') := by
  unfold State.inByte
  rw [hR.input h]
  split
  · exact hk _ _ _ (hR.setInput h _)
  · exact .next (hR.raise h _)
  · exact .fault _

theorem StreamRel.outBytes (hR : StreamRel R i j) (bs : List Byte) {k k' : State → Result}
    (hk : ∀ s t, R s t → SameOutcome R (k s) (k' t)) (h : R s t) :
    SameOutcome R (s.outBytes i bs k) (t.outBytes j bs k') := by
  unfold State.outBytes
  rw [hR.output h]
  split
  · exact hk _ _ (hR.setOutput h _)
  · exact .next (hR.raise (hR.setOutput h _) _)

theorem StreamRel.putsLoop (hR : StreamRel R i j) (fuel : Nat) : ∀ (a : Word) {s t : State}, R s t →
    SameOutcome R (putsLoop i fuel a s) (putsLoop j fuel a t) := by
  induction fuel with
  | zero => exact fun _ _ _ _ => .fault _
  | succ fuel ih =>
    intro a s t h
    rw [Machine.putsLoop, Machine.putsLoop, hR.mem h]
    split
    · exact .next h
    · exact hR.outBytes _ (fun _ _ => ih (a + 1)) h

theorem StreamRel.putspLoop (hR : StreamRel R i j) (fuel : Nat) : ∀ (a : Word) {s t : State}, R s t →
    SameOutcome R (putspLoop i fuel a s) (putspLoop j fuel a t) := by
  induction fuel with
  | zero => exact fun _ _ _ _ => .fault _
  | succ fuel ih =>
    intro a s t h
    rw [Machine.putspLoop, Machine.putspLoop, hR.mem h]
    split
    · exact .next h
    · refine hR.outBytes _ (fun s t h => ?_) h
      rw [hR.mem h]
      split
      · exact .next h
      · exact hR.outBytes _ (fun _ _ => ih (a + 1)) h

theorem StreamRel.walkFuel (hR : StreamRel R i j) (h : R s t) : t.walkFuel = s.walkFuel := by
  rw [State.walkFuel, State.walkFuel, hR.output h]

end

/-- Related states are the same in all that instruction `i` reads, and stay related under all that it does. -/
structure ExecRel (R : State → State → Prop) (i : Instr) : Prop extends StreamRel R i i where
  pc {s t : State} (h : R s t) : t.pc = s.pc
  reads {s t : State} (h : R s t) (q : Reg) (hq : q ∈ readsRegs i) : t.reg q = s.reg q
  cond {s t : State} (h : R s t) {n z p : Bool} {off : BitVec 9} (hi : i = .br n z p off) : t.cond = s.cond
  setPc {s t : State} (h : R s t) (a : Word) : R (s.setPc a) (t.setPc a)
  store {s t : State} (h : R s t) (a v : Word) : R (s.store a v) (t.store a v)
  halt {s t : State} (h : R s t) : R s.halt t.halt
  setReg {s t : State} (h : R s t) (q : Reg) (hq : q ∈ writesRegs i) (v : Word) : R (s.setReg q v) (t.setReg q v)
  setCond {s t : State} (h : R s t) (c : BitVec 3) : R (s.setCond c) (t.setCond c)

section
variable {R : State → State → Prop} {i : Instr} {s t : State}

theorem ExecRel.writeResult (hR : ExecRel R i) (h : R s t) (q : Reg) (hq : q ∈ writesRegs i) (v : Word) :
    R (s.writeResult q v) (t.writeResult q v) :=
  hR.setCond (hR.setReg h q hq v) _

theorem ExecRel.link (hR : ExecRel R i) (h : R s t) (hq : 7 ∈ writesRegs i) : R s.link t.link := by
  rw [State.link, State.link, hR.pc h]
  exact hR.setReg h 7 hq _

theorem ExecRel.storeChar (hR : ExecRel R i) (h : R s t) (hq : 0 ∈ writesRegs i) (c : Byte) :
    R (s.storeChar c) (t.storeChar c) :=
  hR.writeResult h 0 hq _

theorem ExecRel.pcRel (hR : ExecRel R i) (h : R s t) {n : Nat} (off : BitVec n) : t.pcRel off = s.pcRel off := by
  rw [State.pcRel, State.pcRel, hR.pc h]

/-- An instruction makes the same of two related states. -/
theorem ExecRel.exec (hR : ExecRel R i) (h : R s t) : SameOutcome R (exec i s) (exec i t) := by
  have hread := hR.reads h
  cases i with
  | addReg dr | addImm dr | andReg dr | andImm dr | not dr | ldr dr =>
    have hdr := hR.writeResult h dr (List.mem_singleton_self dr)
    simp only [readsRegs, List.mem_cons, List.not_mem_nil, or_false, forall_eq_or_imp, forall_eq] at hread
    simp only [Machine.exec, execAddReg, execAddImm, execAndReg, execAndImm, execNot, execLdr, State.baseOff, hread,
      hR.mem h]
    exact .next (hdr _)
  | ld dr | ldi dr | lea dr =>
    have hdr := hR.writeResult h dr (List.mem_singleton_self dr)
    simp only [Machine.exec, execLd, execLdi, execLea, State.indirect, hR.pcRel h, hR.mem h]
    exact .next (hdr _)
  | st | sti | str =>
    simp only [readsRegs, List.mem_cons, List.not_mem_nil, or_false, forall_eq_or_imp, forall_eq] at hread
    simp only [Machine.exec, execSt, execSti, execStr, State.indirect, State.baseOff, hread, hR.pcRel h, hR.mem h]
    exact .next (hR.store h _ _)
  | br n z p off =>
    rw [exec_br, exec_br, State.condMet, State.condMet, hR.cond h rfl, hR.pcRel h, hR.pc h]
    exact .next (hR.setPc h _)
  | jmp ignHi base =>
    simp only [readsRegs, List.mem_cons, List.not_mem_nil, or_false, forall_eq] at hread
    simp only [Machine.exec, execJmp, hread]
    exact .next (hR.setPc h _)
  | jsr off =>
    have hlink := hR.link h (List.mem_singleton_self 7)
    simp only [Machine.exec, execJsr, hR.pcRel h]
    exact .next (hR.setPc hlink _)
  | jsrr ignHi base =>
    have hlink := hR.link h (List.mem_singleton_self 7)
    simp only [readsRegs, List.mem_cons, List.not_mem_nil, or_false, forall_eq] at hread
    simp only [Machine.exec, execJsrr, State.reg_link, hread, hR.pc h]
    exact .next (hR.setPc hlink _)
  | rti | res => exact .next (hR.raise h _)
  | trap => exact .next (hR.raise (hR.link h (List.mem_singleton_self 7)) _)
  | getc ign =>
    have hlink := hR.link h (List.mem_cons_self ..)
    exact hR.inByte (fun c _ _ h => .next (hR.storeChar h (by simp [writesRegs]) c)) hlink
  | inChar ign =>
    have hlink := hR.link h (List.mem_cons_self ..)
    refine hR.outBytes _ (fun _ _ h => hR.inByte (fun c _ _ h => ?_) h) hlink
    exact hR.outBytes _ (fun _ _ h => .next (hR.storeChar h (by simp [writesRegs]) c)) h
  | out ign =>
    simp only [readsRegs, List.mem_cons, List.not_mem_nil, or_false, forall_eq] at hread
    simp only [Machine.exec, execOut, hread]
    exact hR.outBytes _ (fun _ _ h => .next h) (hR.link h (List.mem_singleton_self 7))
  | halt ign => exact hR.outBytes _ (fun _ _ h => .next (hR.halt h)) (hR.link h (List.mem_singleton_self 7))
  | puts ign =>
    simp only [readsRegs, List.mem_cons, List.not_mem_nil, or_false, forall_eq] at hread
    simp only [Machine.exec, execPuts, hread, hR.walkFuel h]
    exact hR.putsLoop _ _ (hR.link h (List.mem_singleton_self 7))
  | putsp ign =>
    simp only [readsRegs, List.mem_cons, List.not_mem_nil, or_false, forall_eq] at hread
    simp only [Machine.exec, execPutsp, hread, hR.walkFuel h]
    exact hR.putspLoop _ _ (hR.link h (List.mem_singleton_self 7))

end

theorem State.setReg_comm (s : State) {q r : Reg} (h : q ≠ r) (v w : Word) :
    (s.setReg r v).setReg q w = (s.setReg q w).setReg r v := by
  have hval : r.val ≠ q.val := fun e => h (Fin.ext e.symm)
  simp only [State.setReg, Vector.set_comm _ _ hval]

/-- A register that the row of `i` does not list carries any value along. -/
theorem execRel_setReg {i : Instr} {r : Reg} (v : Word) (hr : r ∉ readsRegs i) (hw : r ∉ writesRegs i) :
    ExecRel (fun s t => t = s.setReg r v) i where
  mem := by rintro s _ rfl; rfl
  input := by rintro s _ rfl; rfl
  output := by rintro s _ rfl; rfl
  setInput := by rintro s _ rfl x; rfl
  setOutput := by rintro s _ rfl o; rfl
  raise := by rintro s _ rfl k; rfl
  pc := by rintro s _ rfl; rfl
  reads := by rintro s _ rfl q hq; exact s.reg_setReg_ne v fun e => hr (e ▸ hq)
  cond := by rintro s _ rfl n z p off -; rfl
  setPc := by rintro s _ rfl a; rfl
  store := by rintro s _ rfl a w; rfl
  halt := by rintro s _ rfl; rfl
  setReg := by rintro s _ rfl q hq w; exact s.setReg_comm (fun e : q = r => hw (e ▸ hq)) v w
  setCond := by rintro s _ rfl c; rfl

/-- Settles O35: the two states are related by that register's value. -/
theorem registersNotListedDoNotMatter : Obligations.RegistersNotListedDoNotMatter :=
  fun _ _ _ v hr hw => ((execRel_setReg v hr hw).exec rfl).eq_mapNext

/-- COND carries any value along, until it is written. -/
theorem execRel_setCond {i : Instr} (c : BitVec 3) (hi : ∀ n z p off, i ≠ .br n z p off) :
    ExecRel (fun s t => t = s ∨ t = s.setCond c) i where
  mem := by rintro s _ (rfl | rfl) <;> rfl
  input := by rintro s _ (rfl | rfl) <;> rfl
  output := by rintro s _ (rfl | rfl) <;> rfl
  setInput := by rintro s _ (rfl | rfl) x; exacts [.inl rfl, .inr rfl]
  setOutput := by rintro s _ (rfl | rfl) o; exacts [.inl rfl, .inr rfl]
  raise := by rintro s _ (rfl | rfl) k; exacts [.inl rfl, .inr rfl]
  pc := by rintro s _ (rfl | rfl) <;> rfl
  reads := by rintro s _ (rfl | rfl) q - <;> rfl
  cond := fun _ n z p off e => absurd e (hi n z p off)
  setPc := by rintro s _ (rfl | rfl) a; exacts [.inl rfl, .inr rfl]
  store := by rintro s _ (rfl | rfl) a w; exacts [.inl rfl, .inr rfl]
  halt := by rintro s _ (rfl | rfl); exacts [.inl rfl, .inr rfl]
  setReg := by rintro s _ (rfl | rfl) q - w; exacts [.inl rfl, .inr rfl]
  setCond := by rintro s _ (rfl | rfl) d <;> exact .inl rfl

/-- Settles O36: the next states are the same, or the same but for the value carried along. -/
theorem condReadOnlyByBranch : Obligations.CondReadOnlyByBranch := by
  intro i s c hi
  have hsame := (execRel_setCond c hi).exec (s := s) (t := s.setCond c) (.inr rfl)
  generalize exec i s = r at hsame ⊢
  generalize exec i (s.setCond c) = r' at hsame ⊢
  cases hsame with
  | next h => exact h.imp (congrArg Host.Outcome.next) (congrArg Host.Outcome.next)
  | fault => exact .inl rfl

theorem forgetWord_raise (s : State) (k : FaultKind) (i j : Instr) :
    forgetWord (s.raise k i) = forgetWord ((forgetWord s).raise k j) := rfl

theorem forgetWord_storeChar {s t : State} (c : Byte) (h : forgetWord s = forgetWord t) :
    forgetWord (s.storeChar c) = forgetWord (t.storeChar c) :=
  congrArg (State.storeChar · c) h

theorem forgetWord_halt {s t : State} (h : forgetWord s = forgetWord t) : forgetWord s.halt = forgetWord t.halt :=
  congrArg State.halt h

/-- States that differ only in the word of a fault record, whatever the two instructions. -/
theorem streamRel_forgetWord (i j : Instr) : StreamRel (fun s t => forgetWord s = forgetWord t) i j where
  mem h := (congrArg State.mem h).symm
  input h := (congrArg State.input h).symm
  output h := (congrArg State.output h).symm
  setInput h x := congrArg (State.setInput · x) h
  setOutput h o := congrArg (State.setOutput · o) h
  raise h k := by rw [forgetWord_raise _ k i j, h, ← forgetWord_raise]

/-- An instruction and the one with its ignored bits cleared: only the routines hand their instruction on, for a fault
record to hold its word. -/
theorem exec_canonical (i : Instr) (s : State) :
    mapNext forgetWord (exec i s) = mapNext forgetWord (exec (canonical i) s) := by
  have hR := streamRel_forgetWord i (canonical i)
  cases i with
  | getc => exact (hR.inByte (fun c _ _ h => .next (forgetWord_storeChar c h)) rfl).mapNext_eq
  | out => exact (hR.outBytes _ (fun _ _ h => .next h) rfl).mapNext_eq
  | halt => exact (hR.outBytes _ (fun _ _ h => .next (forgetWord_halt h)) rfl).mapNext_eq
  | puts => exact (hR.putsLoop _ _ rfl).mapNext_eq
  | putsp => exact (hR.putspLoop _ _ rfl).mapNext_eq
  | inChar =>
    refine (hR.outBytes _ (fun _ _ h => hR.inByte (fun c _ _ h => ?_) h) rfl).mapNext_eq
    exact hR.outBytes _ (fun _ _ h => .next (forgetWord_storeChar c h)) h
  | _ => rfl

/-- Settles O50: both outcomes are that of the instruction with its ignored bits cleared. -/
theorem ignoredBitsDoNotMatter : Obligations.IgnoredBitsDoNotMatter := by
  intro i j s h
  rw [exec_canonical i, exec_canonical j, h]

end Sys2Proof.Machine
end

section
/-! The canonical form determines the memory (10_state.md R19). -/

namespace Sys2Proof.Machine

theorem Memory.get_eq_of_mem {m : Memory} (hp : m.Pairwise (fun c d => c.1 < d.1)) {c : Nat × Word} (hc : c ∈ m) :
    m.get c.1 = c.2 := by
  induction m with
  | nil => simp at hc
  | cons d m ih =>
    obtain ⟨hd, hm⟩ := List.pairwise_cons.1 hp
    obtain rfl | hc := List.mem_cons.1 hc
    · simp [Memory.get]
    · rw [Memory.get, if_neg (hd c hc).ne]
      exact ih hm hc

theorem Memory.mem_of_get_ne {m : Memory} {k : Nat} (h : m.get k ≠ Memory.unlisted) : (k, m.get k) ∈ m := by
  induction m with
  | nil => exact absurd rfl h
  | cons c m ih =>
    rw [Memory.get] at h ⊢
    split_ifs at h ⊢ with hk
    · simp [← hk]
    · exact List.mem_cons_of_mem _ (ih h)

/-- The entries of a canonical memory are the cells that do not read as an unlisted one. -/
theorem Memory.mem_iff_of_wf {m : Memory} (h : m.wf = true) (c : Nat × Word) :
    c ∈ m ↔ c.1 < Config.ncell ∧ c.2 ≠ Memory.unlisted ∧ m.get c.1 = c.2 := by
  obtain ⟨hp, hm⟩ := m.wf_iff.1 h
  constructor
  · intro hc
    exact ⟨(hm c hc).1, (hm c hc).2, Memory.get_eq_of_mem hp hc⟩
  · rintro ⟨-, hne, hget⟩
    have hmem := Memory.mem_of_get_ne (m := m) (k := c.1) (hget ▸ hne)
    rwa [hget] at hmem

/-- A read at an address of the space is a read at a word. -/
theorem Memory.get_eq_read (m : Memory) {k : Nat} (hk : k < Config.ncell) : m.get k = m.read (BitVec.ofNat 16 k) := by
  rw [Memory.read, BitVec.toNat_ofNat, Nat.mod_eq_of_lt (show k < 2 ^ 16 from hk)]

theorem Memory.nodup_of_wf {m : Memory} (h : m.wf = true) : m.Nodup := by
  obtain ⟨hp, -⟩ := m.wf_iff.1 h
  exact hp.imp fun {c d} (hlt : c.1 < d.1) (e : c = d) => hlt.ne (congrArg Prod.fst e)

/-- Settles O52: the two lists have the same entries, each in the order of addresses. -/
theorem canonicalMemoriesReadAlikeAreEqual : Obligations.CanonicalMemoriesReadAlikeAreEqual := by
  intro m n hm hn hread
  have hget {k : Nat} (hk : k < Config.ncell) : m.get k = n.get k := by
    rw [m.get_eq_read hk, n.get_eq_read hk, hread]
  have hentries (c : Nat × Word) : c ∈ m ↔ c ∈ n := by
    rw [Memory.mem_iff_of_wf hm, Memory.mem_iff_of_wf hn]
    exact and_congr_right fun hk => by rw [hget hk]
  obtain ⟨hpm, -⟩ := m.wf_iff.1 hm
  obtain ⟨hpn, -⟩ := n.wf_iff.1 hn
  have hperm : m.Perm n :=
    (List.perm_ext_iff_of_nodup (Memory.nodup_of_wf hm) (Memory.nodup_of_wf hn)).2 hentries
  exact hperm.eq_of_pairwise (fun c d _ _ h h' => absurd h h'.asymm) hpm hpn

end Sys2Proof.Machine
end

section
/-! Images: their bytes, the cells they cover, and the state at the first fetch (10_state.md R22;
70_reset_and_hazards.md R160 to R163). -/

namespace Sys2Proof.Machine

open Sys2Proof.Spec

/-- The high byte, then the low byte, of a word. -/
theorem append_bytes (w : Word) : (w >>> 8).setWidth 8 ++ w.setWidth 8 = w := by
  rw [BitVec.setWidth_ushiftRight_eq_extractLsb, BitVec.setWidth_eq_extractLsb' (by decide)]
  exact BitVec.extractLsb'_append_extractLsb' (w := 8) (len := 8)

theorem wordsOfBytes_fileBytes (ws : List Word) : wordsOfBytes (fileBytes ws) = some ws := by
  induction ws with
  | nil => rfl
  | cons w ws ih => rw [fileBytes, wordsOfBytes, ih, Option.map_some, append_bytes]

/-- Settles O56: the words of the file are the origin and the image's words. -/
theorem imageFilesAreBigEndian : Obligations.ImageFilesAreBigEndian := by
  intro origin words
  rw [imageOfBytes, wordsOfBytes_fileBytes]

/-- A cell after words are placed from `a` up: no word past the top of memory is. -/
theorem Memory.get_loadFrom (ws : List Word) : ∀ (m : Memory) (a k : Nat), (m.loadFrom a ws).get k =
    if a ≤ k ∧ k < a + min ws.length (Config.ncell - a) then ws.getD (k - a) 0 else m.get k := by
  induction ws with
  | nil => intro m a k; simp [Memory.loadFrom]
  | cons w ws ih =>
    intro m a k
    rw [Memory.loadFrom]
    split
    case isFalse ha => rw [if_neg (by omega)]
    case isTrue ha =>
      rw [ih]
      by_cases hk : k = a
      · have hcover : a ≤ a ∧ a < a + min (w :: ws).length (Config.ncell - a) := by
          rw [List.length_cons]
          omega
        subst hk
        rw [if_neg (by omega), if_pos hcover, Memory.get_put_same, Nat.sub_self, List.getD_cons_zero]
      · rw [Memory.get_put_ne _ _ hk]
        by_cases hin : a + 1 ≤ k ∧ k < a + 1 + min ws.length (Config.ncell - (a + 1))
        · have hnext : k - a = k - (a + 1) + 1 := by omega
          rw [if_pos hin, if_pos (by rw [List.length_cons]; omega), hnext, List.getD_cons_succ]
        · rw [if_neg hin, if_neg (by rw [List.length_cons]; omega)]

/-- Settles O55: only memory changes, and each cell by the placing of the words. -/
theorem loadWritesExactlyTheImage : Obligations.LoadWritesExactlyTheImage :=
  fun s img => ⟨fun a => Memory.get_loadFrom img.words s.mem img.origin.toNat a.toNat,
    rfl, rfl, rfl, rfl, rfl, rfl, rfl⟩

/-- The images in order, cell by cell. -/
theorem read_loadImages (images : List Image) : ∀ (s : State) (a : Word),
    (images.foldl State.loadImage s).mem.read a = cellAfter a (s.mem.read a) images := by
  induction images with
  | nil => exact fun _ _ => rfl
  | cons img images ih =>
    intro s a
    obtain ⟨hcell, -⟩ := loadWritesExactlyTheImage s img
    have ha := a.isLt
    have hcover : img.origin.toNat ≤ a.toNat ∧
        a.toNat < img.origin.toNat + min img.words.length (65536 - img.origin.toNat) ↔
        img.origin.toNat ≤ a.toNat ∧ a.toNat < img.origin.toNat + img.words.length := by omega
    rw [List.foldl_cons, ih, hcell, cellAfter]
    simp only [hcover]

/-- Loading images leaves everything but memory. -/
theorem loadImages_eq (images : List Image) : ∀ (s : State),
    images.foldl State.loadImage s = { s with mem := (images.foldl State.loadImage s).mem } := by
  induction images with
  | nil => exact fun _ => rfl
  | cons img images ih => exact fun s => ih (s.loadImage img)

/-- Settles O57: the images change power-on's memory only, and start leaves it. -/
theorem stateAtFirstFetch : Obligations.StateAtFirstFetch := by
  rintro regs pc0 cond0 input room images _ rfl
  have hread (a : Word) := read_loadImages images (State.powerOn regs pc0 cond0 input room) a
  have hrest := loadImages_eq images (State.powerOn regs pc0 cond0 input room)
  rw [State.launch, hrest]
  exact ⟨rfl, rfl, rfl, rfl, rfl, rfl, rfl, rfl, hread⟩

/-- Settles O54: start writes four fields, and the machine it leaves runs from the entry. -/
theorem startFetchesFromEntry : Obligations.StartFetchesFromEntry :=
  fun _ => ⟨rfl, rfl, rfl, rfl, rfl, rfl, rfl, rfl, step_of_running rfl⟩

end Sys2Proof.Machine
end

section
/-! Cycles in a row (20_memory.md R40; 40_cycle.md R70; 70_reset_and_hazards.md R168). -/

namespace Sys2Proof.Machine

open Sys2Proof.Spec

/-- Settles O31: only a running machine has a next state. -/
theorem stoppedMachineTakesNoStep : Obligations.StoppedMachineTakesNoStep :=
  fun _ _ hrun hstep => hrun (step_eq_next_iff.1 hstep).1

/-- ST with offset 0 stores to the cell after it. -/
theorem State.pcRel_zero (s : State) : s.pcRel (0 : BitVec 9) = s.pc :=
  BitVec.add_zero s.pc

/-- Settles O53: the store is to the cell that the state after it fetches from. -/
theorem storeIsSeenByTheNextFetch : Obligations.StoreIsSeenByTheNextFetch := by
  intro s sr hrun hst
  have hstep : step s = .next (s.advance.store s.advance.pc (s.reg sr)) := by
    rw [step_of_running hrun, State.fetchWord, hst]
    simp only [exec, execSt, State.pcRel_zero, State.reg_advance]
  have hfetch : (s.advance.store s.advance.pc (s.reg sr)).fetchWord = s.reg sr := Memory.read_write_same ..
  have hpc : s.advance.pc + 1 = s.pc + 2 := BitVec.add_assoc s.pc 1 1
  refine ⟨_, hstep, ?_⟩
  rw [step_of_running (s := s.advance.store _ _) hrun, hfetch, State.advance, State.store_pc, hpc]

/-- A zero cell is a BR never taken: the pc moves on, and nothing else changes. -/
theorem step_of_zero_word {s : State} (hrun : s.run = .running) (h : s.mem.read s.pc = 0) :
    step s = .next s.advance := by
  have hdecode : decode 0 = .br false false false 0 := by decide
  rw [step_of_running hrun, State.fetchWord, h, hdecode, exec_br, State.condMet_none]
  rfl

theorem State.setPc_self (s : State) : s.setPc s.pc = s := rfl

/-- Settles O58: one more step is one more advance. -/
theorem zeroedMemoryIsRunThrough : Obligations.ZeroedMemoryIsRunThrough := by
  intro n
  induction n with
  | zero =>
    intro s _ _
    simp [Host.Core.run, State.setPc_self]
  | succ n ih =>
    intro s hrun hzero
    rw [run_succ (step_of_zero_word hrun (hzero s.pc)), ih s.advance hrun hzero, State.advance_pc, walk_next]
    rfl

/-- BRnzp to itself steps to the same state. -/
theorem step_of_branch_to_itself {s : State} (hrun : s.run = .running) (hone : s.condOneHot)
    (h : s.mem.read s.pc = 0x0FFF) : step s = .next s := by
  have hdecode : decode 0x0FFF = .br true true true 0x1FF := by decide
  have htaken : s.advance.condMet true true true = true := State.condMet_all hone
  have hback : s.advance.pcRel (0x1FF : BitVec 9) = s.pc := by
    rw [State.pcRel, State.advance_pc, BitVec.add_assoc]
    exact BitVec.add_zero s.pc
  rw [step_of_running hrun, State.fetchWord, h, hdecode, exec_br, if_pos htaken, hback]
  rfl

/-- Settles O59: every step is that one. -/
theorem branchToItselfNeverEnds : Obligations.BranchToItselfNeverEnds := by
  intro n s hrun hone h
  induction n with
  | zero => rfl
  | succ n ih => rw [run_succ (step_of_branch_to_itself hrun hone h), ih]

end Sys2Proof.Machine
end
